-- ==== Sys2Proof/Word.lean ====
section
/-! DEFINITION. The two word sizes of the block: the byte of the buffer and the 16-bit word (00_scope.md R5
`WORD_BITS`, 20_memory.md R30, R34), and the operand width (10_state.md R18). -/

namespace Sys2Proof

/-- One element of the buffer: "an integer 0..255" (20_memory.md R30). -/
abbrev Byte := BitVec 8

/-- An instruction word or an extension word: 16 bits (00_scope.md R5, R6). -/
abbrev Word := BitVec 16

/-- "bit width (byte | word)" of an operand (10_state.md R18). -/
inductive Width where
  | byte
  | word
deriving DecidableEq, Repr

end Sys2Proof
end

