-- ==== Sys2Proof/Config.lean ====
section
/-! DEFINITION. The shape of the block's build-time parameters (00_scope.md R5, 10_state.md R26). The values this
hardware takes stand in Machine/Parameters.lean. No parameter is a free value: the spec gives every one a value. -/

namespace Sys2Proof

/-- The parameter `DST_REINTERP`: which rows of the reinterpretation table reach a destination operand
(40_decode_pipeline.md R82, 90_conflicts.md C2, 92_eei_decisions.md D5). -/
inductive DstReinterp where
  /-- Only `sr` with raw mode indexed is reinterpreted (the reading the spec follows). -/
  | srAbsoluteOnly
  /-- Every row a 1-bit raw mode can reach is applied (the reading the spec records and does not follow). -/
  | fullTable
deriving DecidableEq, Repr

/-- The parameter `IWORD_ORDER`: the byte order of the instruction word (20_memory.md R32, 92_eei_decisions.md D2).
Extension words are little-endian whatever its value (20_memory.md R33). -/
inductive ByteOrder where
  | littleEndian
  | bigEndian
deriving DecidableEq, Repr

/-- The parameters of 00_scope.md R5 that are data; `WORD_BITS`, `NREGS`, `NMODES` are the types Word, Reg and
AddrMode, `REG_INDEX` is `regOfIndex`, the `ADDRESS` domain is Int, `FAIL_CODES` is `statusCode`. -/
structure Config where
  /-- `RET_WORD`, the fixed return word (30_encoding.md R53). -/
  retWord : Word
  /-- `IWORD_ORDER`. -/
  iwordOrder : ByteOrder
  /-- `DST_REINTERP`. -/
  dstReinterp : DstReinterp
  /-- `DINT_SRC_VALUE`, compared with the whole source value (44_emulated.md R142). -/
  dintSrcValue : Word
  /-- `BRANCH_WIDTH`, the width of a branch-only operand (40_decode_pipeline.md R76). -/
  branchWidth : Width
  /-- `MAX_LEN`, the longest instruction in bytes and the size of the fetch window (10_state.md R11). -/
  maxLen : Nat
deriving DecidableEq, Repr

end Sys2Proof
end

