-- ==== Sys2Proof/Machine/Parameters.lean ====
section
/-! DEFINITION. The values this hardware gives the parameters (00_scope.md R5). -/

namespace Sys2Proof.Machine

/-- The parameter values of 00_scope.md R5. PRESUMED: `retWord` is the spec's general-knowledge value (D1, log 1).
DEDUCED: `iwordOrder` (D2, log 2), `dstReinterp` (D5, log 4), `branchWidth` (D7, log 7) are the spec's own choices.
UNVERIFIED: `dintSrcValue` is the source's unaudited literal (D21, log 5). -/
def config : Config :=
  { retWord := 0x4130#16
    iwordOrder := .littleEndian
    dstReinterp := .srAbsoluteOnly
    dintSrcValue := 0x00f0#16
    branchWidth := .word
    maxLen := 6 }

end Sys2Proof.Machine
end

