-- ==== Sys2Proof/Machine/Bits.lean ====
section
/-! DEFINITION. Bit fields, sign extension and byte order: the block's only arithmetic on bits (00_scope.md R6, R7;
40_decode_pipeline.md R94). -/

namespace Sys2Proof.Machine

/-- `w[lo+len-1 : lo]`, the `len` bits of the word that start at bit `lo` (00_scope.md R6). -/
def slice (w : Word) (lo len : Nat) : BitVec len :=
  w.extractLsb' lo len

/-- `sext_10(v)`: `v - 1024` if `v[9] = 1`, else `v` (00_scope.md R7, 30_encoding.md R61). -/
def sext10 (v : BitVec 10) : Int :=
  if v.msb then (v.toNat : Int) - 1024 else (v.toNat : Int)

/-- The little-endian word of two bytes in buffer order (20_memory.md R33). -/
def littleWord (b0 b1 : Byte) : Word :=
  b1 ++ b0

/-- The two bytes of a word in little-endian buffer order. -/
def littleBytes (w : Word) : List Byte :=
  [w.extractLsb' 0 8, w.extractLsb' 8 8]

/-- The instruction word of the first two bytes of the buffer, in the order `IWORD_ORDER` (20_memory.md R32). -/
def instructionWord (b0 b1 : Byte) : Word :=
  match config.iwordOrder with
  | .littleEndian => littleWord b0 b1
  | .bigEndian => littleWord b1 b0

/-- The two bytes of an instruction word in buffer order (20_memory.md R32). -/
def instructionBytes (w : Word) : List Byte :=
  match config.iwordOrder with
  | .littleEndian => littleBytes w
  | .bigEndian => (littleBytes w).reverse

end Sys2Proof.Machine
end

