-- ==== Sys2Proof/Syntax.lean ====
section
/-! DEFINITION. The instructions as the encoding lays them out (30_encoding.md R45 to R48): one constructor per row
of spec/opcode_table.json. An instruction holds its fields AS ENCODED (register, raw mode, width bit, extension words);
the final addressing mode is the Operand Decoder's (Machine/Operands.lean). -/

namespace Sys2Proof

/-- "closed set of 16 named slots: `pc, sp, sr, cg, r4..r15`" (10_state.md R17). A register is a name in an operand;
the block holds no register contents. -/
inductive Reg where
  | pc | sp | sr | cg | r4 | r5 | r6 | r7 | r8 | r9 | r10 | r11 | r12 | r13 | r14 | r15
deriving DecidableEq, Repr

/-- The raw source mode, `IR[5:4]` (30_encoding.md R54). -/
inductive RawSrcMode where
  | registerDirect
  | indexed
  | indirectRegister
  | indirectAutoincrement
deriving DecidableEq, Repr

/-- The raw destination mode, `IR[7]` (30_encoding.md R55). -/
inductive RawDstMode where
  | registerDirect
  | indexed
deriving DecidableEq, Repr

/-- The source fields of an instruction: register, raw mode, and the extension word if the final mode takes one
(30_encoding.md R46, R47, R62). -/
structure SrcField where
  reg : Reg
  mode : RawSrcMode
  ext : Option Word
deriving DecidableEq, Repr

/-- The destination fields of a two-operand instruction (30_encoding.md R46, R62). -/
structure DstField where
  reg : Reg
  mode : RawDstMode
  ext : Option Word
deriving DecidableEq, Repr

/-- One constructor per row of spec/opcode_table.json (30_encoding.md R68). Two-operand constructors hold the width
bit, the source and the destination; one-operand constructors hold the two bits `IR[11:10]` that no rule examines (R58),
the width bit and the source; branch-only constructors hold `off10`; the invalid rows hold the bits their pattern
leaves open. -/
inductive Instr where
  /-- The fixed word `RET_WORD` (44_emulated.md R140). -/
  | ret
  | mov (w : Width) (src : SrcField) (dst : DstField)
  | add (w : Width) (src : SrcField) (dst : DstField)
  | addc (w : Width) (src : SrcField) (dst : DstField)
  | subc (w : Width) (src : SrcField) (dst : DstField)
  | sub (w : Width) (src : SrcField) (dst : DstField)
  | cmp (w : Width) (src : SrcField) (dst : DstField)
  | dadd (w : Width) (src : SrcField) (dst : DstField)
  | bit (w : Width) (src : SrcField) (dst : DstField)
  | bic (w : Width) (src : SrcField) (dst : DstField)
  | bis (w : Width) (src : SrcField) (dst : DstField)
  | xor (w : Width) (src : SrcField) (dst : DstField)
  | and (w : Width) (src : SrcField) (dst : DstField)
  | rrc (unexamined : BitVec 2) (w : Width) (src : SrcField)
  | swpb (unexamined : BitVec 2) (w : Width) (src : SrcField)
  | rra (unexamined : BitVec 2) (w : Width) (src : SrcField)
  | sxt (unexamined : BitVec 2) (w : Width) (src : SrcField)
  | push (unexamined : BitVec 2) (w : Width) (src : SrcField)
  | call (unexamined : BitVec 2) (w : Width) (src : SrcField)
  | reti (unexamined : BitVec 2) (w : Width) (src : SrcField)
  | jnz (off10 : BitVec 10)
  | jz (off10 : BitVec 10)
  | jnc (off10 : BitVec 10)
  | jc (off10 : BitVec 10)
  | jn (off10 : BitVec 10)
  | jge (off10 : BitVec 10)
  | jl (off10 : BitVec 10)
  | jmp (off10 : BitVec 10)
  /-- A `mov` word whose destination register field is `pc`, other than `RET_WORD` (44_emulated.md R141). -/
  | br (w : Width) (src : SrcField) (dmode : RawDstMode) (dext : Option Word)
  /-- A `bis` word whose destination register field is `sr` and whose source extension word is `DINT_SRC_VALUE`
  (44_emulated.md R142). -/
  | dint (w : Width) (sreg : Reg) (smode : RawSrcMode) (dmode : RawDstMode) (dext : Option Word)
  /-- A word with opcode nibble 0 (30_encoding.md R57); `low` is `IR[11:0]`. -/
  | invalidOpcode0 (low : BitVec 12)
  /-- A word with opcode nibble 1 and selector 7 (30_encoding.md R59); `low` is `IR[6:0]`. -/
  | invalidOpcode1Selector7 (unexamined : BitVec 2) (low : BitVec 7)
deriving DecidableEq, Repr

end Sys2Proof
end

