-- ==== Sys2Proof/Machine/State.lean ====
section
/-! DEFINITION. The output record of the block (10_state.md R15, R18, R19), its two failures (60_exceptions.md R150),
and State: the ports of the block, the instruction register of the call evaluated on these inputs, and that call's result
(10_state.md R10). Plain data throughout. -/

namespace Sys2Proof.Machine

/-- The fourteen resolved addressing modes, "one of fourteen variants" (10_state.md R19). -/
inductive AddrMode where
  | registerDirect
  | indexed
  | indirectRegister
  | indirectAutoincrement
  | symbolic
  | immediate
  | absolute
  | constant0
  | constant1
  | constant2
  | constantNeg1
  | constant4
  | constant8
  | pcRelativeOffset
deriving DecidableEq, Repr

/-- The instruction class of a record (10_state.md R15); `none` is for `ret` and `dint` (R16 item 3). -/
inductive InstrClass where
  | twoOperand
  | oneOperand
  | branchOnly
  | none
deriving DecidableEq, Repr

/-- The thirty mnemonics (30_encoding.md R66). -/
inductive Mnemonic where
  | mov | add | addc | subc | sub | cmp | dadd | bit | bic | bis | xor | and
  | rrc | swpb | rra | sxt | push | call | reti
  | jnz | jz | jnc | jc | jn | jge | jl | jmp
  | ret | br | dint
deriving DecidableEq, Repr

/-- "one operand slot" (10_state.md R18). `value` is a mathematical integer, or none (R20 c). -/
structure Operand where
  mode : AddrMode
  reg : Option Reg
  width : Width
  value : Option Int
  extra : Nat
deriving DecidableEq, Repr

/-- The Instruction record, "one decoded unit" (10_state.md R15); `cls` is its field `class`. -/
structure Record where
  address : Int
  mnemonic : Mnemonic
  cls : InstrClass
  src : Option Operand
  dst : Option Operand
  length : Nat
  emulated : Bool
deriving DecidableEq, Repr

/-- The two synchronous failures, tags without payload (60_exceptions.md R150). -/
inductive Failure where
  | truncatedInput
  | invalidOpcode
deriving DecidableEq, Repr

/-- What a decode call returns: exactly one of a record and a failure (10_state.md R21). -/
inductive CallResult where
  | record (r : Record)
  | failure (f : Failure)
deriving DecidableEq, Repr

/-- The bytes of the buffer `buf`, as cells of strictly rising index, none of them 0x00: a byte of the buffer that is
not listed is 0x00. With `n` it says the buffer whole (20_memory.md R30; the form is DESIGN CHOICE, log 14). -/
abbrev Memory := List Host.Cell

/-- What an unlisted byte of the buffer reads as. This is how the buffer is written down, not a value the hardware
gives: the caller gives every byte below `n` (log 14). -/
def Memory.background : Byte := 0#8

/-- The ports of the block and the values of the call evaluated on the inputs they hold (10_state.md R10). The block keeps nothing from
one call to the next (R24): a step reads `mem`, `n` and `address` only, and overwrites `ir` and `result`. -/
structure State where
  /-- Input: the bytes of `buf` (20_memory.md R30). -/
  mem : Memory
  /-- Input: the number of bytes in `buf` (10_state.md R11). -/
  n : Nat
  /-- Input: the starting address, any integer (10_state.md R13). -/
  address : Int
  /-- The instruction register of the call evaluated on these inputs; none when none was, or it had `n < 2`
  (10_state.md R12, 70_reset_and_hazards.md R171; log 11). -/
  ir : Option Word
  /-- The output of the call evaluated on these inputs; none when none was (10_state.md R21, 70_reset_and_hazards.md
  R171; log 11). -/
  result : Option CallResult
deriving DecidableEq, Repr

/-- The block never stops: "no further failure modes exist" (40_decode_pipeline.md R96, 60_exceptions.md R156), and
its two failures are results of a call (R154). So no fault has a constructor (log 10). -/
inductive Fault where
deriving DecidableEq, Repr

/-- A refusal: an instruction without a meaning. No arm of `exec` raises it: every row has its meaning. -/
inductive Refusal where
  /-- Raised by an arm of `exec` whose instruction is not modelled yet; safe. No arm is left. -/
  | notModelled (mnemonic : String)
deriving DecidableEq, Repr

/-- The block right after reset: no call made, so no `ir` and no result (70_reset_and_hazards.md R171). The inputs have
no reset value; DESIGN CHOICE (log 12): an empty buffer at address 0 is presented. -/
def State.reset : State :=
  { mem := [], n := 0, address := 0, ir := none, result := none }

end Sys2Proof.Machine
end

