-- ==== Sys2Proof/Machine/Operands.lean ====
section
/-! DEFINITION. The Operand Decoder (40_decode_pipeline.md R75 to R86): register-driven reinterpretation of the raw
mode, extra-byte counts, initial values, and the operand records of the three classes. -/

namespace Sys2Proof.Machine

/-- The raw source mode read literally (40_decode_pipeline.md R83). -/
def literalSource : RawSrcMode → AddrMode
  | .registerDirect => .registerDirect
  | .indexed => .indexed
  | .indirectRegister => .indirectRegister
  | .indirectAutoincrement => .indirectAutoincrement

/-- `reinterpret_source(reg, raw)`: the nine rows of 40_decode_pipeline.md R81; every other pair keeps its literal
mode (R83). -/
def reinterpretSource (reg : Reg) (raw : RawSrcMode) : AddrMode :=
  match reg, raw with
  | .pc, .indexed => .symbolic
  | .pc, .indirectAutoincrement => .immediate
  | .cg, .registerDirect => .constant0
  | .cg, .indexed => .constant1
  | .cg, .indirectRegister => .constant2
  | .cg, .indirectAutoincrement => .constantNeg1
  | .sr, .indexed => .absolute
  | .sr, .indirectRegister => .constant4
  | .sr, .indirectAutoincrement => .constant8
  | _, raw => literalSource raw

/-- The raw destination mode read as the source mode of the same name, for the reading `FULL_TABLE` (D5). -/
def rawAsSource : RawDstMode → RawSrcMode
  | .registerDirect => .registerDirect
  | .indexed => .indexed

/-- `reinterpret_destination(reg, raw)` under a given reading of `DST_REINTERP`: under `SR_ABSOLUTE_ONLY` exactly the
row `sr` with raw mode indexed applies (40_decode_pipeline.md R82); under `FULL_TABLE` the whole table of R81 does
(92_eei_decisions.md D5). -/
def reinterpretDestinationUnder (reading : DstReinterp) (reg : Reg) (raw : RawDstMode) : AddrMode :=
  match reading with
  | .srAbsoluteOnly =>
    match reg, raw with
    | .sr, .indexed => .absolute
    | _, .indexed => .indexed
    | _, .registerDirect => .registerDirect
  | .fullTable => reinterpretSource reg (rawAsSource raw)

/-- `reinterpret_destination(reg, raw)` with this hardware's `DST_REINTERP` (40_decode_pipeline.md R82, log 4). -/
def reinterpretDestination (reg : Reg) (raw : RawDstMode) : AddrMode :=
  reinterpretDestinationUnder config.dstReinterp reg raw

/-- `extra_of(mode)`: 2 for the four modes that take an extension word, else 0 (40_decode_pipeline.md R85). -/
def extraOf : AddrMode → Nat
  | .indexed => 2
  | .symbolic => 2
  | .absolute => 2
  | .immediate => 2
  | .registerDirect => 0
  | .indirectRegister => 0
  | .indirectAutoincrement => 0
  | .constant0 => 0
  | .constant1 => 0
  | .constant2 => 0
  | .constantNeg1 => 0
  | .constant4 => 0
  | .constant8 => 0
  | .pcRelativeOffset => 0

/-- `initial_value(mode)`: the literal of a constant mode; none for the others, whose value is none for good (the
register modes, log 6), comes from an extension word, or is the branch offset (40_decode_pipeline.md R86). -/
def initialValue : AddrMode → Option Int
  | .constant0 => some 0
  | .constant1 => some 1
  | .constant2 => some 2
  | .constantNeg1 => some (-1)
  | .constant4 => some 4
  | .constant8 => some 8
  | .registerDirect => none
  | .indexed => none
  | .indirectRegister => none
  | .indirectAutoincrement => none
  | .symbolic => none
  | .immediate => none
  | .absolute => none
  | .pcRelativeOffset => none

/-- An operand with a register, as the Operand Decoder leaves it: before any extension word is read. -/
def registerOperand (w : Width) (reg : Reg) (mode : AddrMode) : Operand :=
  { mode := mode, reg := some reg, width := w, value := initialValue mode, extra := extraOf mode }

/-- The source operand of the two-operand and one-operand classes (40_decode_pipeline.md R75). -/
def sourceOperand (w : Width) (reg : Reg) (raw : RawSrcMode) : Operand :=
  registerOperand w reg (reinterpretSource reg raw)

/-- The destination operand of the two-operand class (40_decode_pipeline.md R77). -/
def destinationOperand (w : Width) (reg : Reg) (raw : RawDstMode) : Operand :=
  registerOperand w reg (reinterpretDestination reg raw)

/-- The source operand of the branch-only class (40_decode_pipeline.md R76, 30_encoding.md R61). -/
def branchSource (off10 : BitVec 10) : Operand :=
  { mode := .pcRelativeOffset, reg := none, width := config.branchWidth, value := some (sext10 off10), extra := 0 }

/-- The extra bytes of an operand slot: an absent operand counts 0 (40_decode_pipeline.md R87). -/
def extraBytes : Option Operand → Nat
  | none => 0
  | some o => o.extra

end Sys2Proof.Machine
end

