-- ==== Sys2Proof/Decode.lean ====
section
/-! DEFINITION. The Opcode Classifier and the field extraction (30_encoding.md R45 to R59, 40_decode_pipeline.md R71 to
R77, R89), from bytes to an instruction, total; then the encoder, from the same tables. -/

namespace Sys2Proof

open Sys2Proof.Machine

/-- Why bytes hold no whole instruction. Both are the failure `TruncatedInput` (60_exceptions.md R151). -/
inductive DecodeError where
  /-- "fewer than 2 bytes supplied" (40_decode_pipeline.md R71). -/
  | noInstructionWord
  /-- Fewer bytes than the computed length (40_decode_pipeline.md R88). -/
  | missingExtensionWord
deriving DecidableEq, Repr

/-! ### Field tables -/

/-- The register a 4-bit field names: its position in `pc, sp, sr, cg, r4..r15` counted from 0 (10_state.md R17;
the numbering is the spec's decision D3, log 3). -/
def regOfIndex (k : BitVec 4) : Reg :=
  match k.toNat with
  | 0 => .pc
  | 1 => .sp
  | 2 => .sr
  | 3 => .cg
  | 4 => .r4
  | 5 => .r5
  | 6 => .r6
  | 7 => .r7
  | 8 => .r8
  | 9 => .r9
  | 10 => .r10
  | 11 => .r11
  | 12 => .r12
  | 13 => .r13
  | 14 => .r14
  | _ => .r15

/-- `REG_INDEX` (00_scope.md R5, 10_state.md R17). -/
def regIndex : Reg → BitVec 4
  | .pc => 0#4
  | .sp => 1#4
  | .sr => 2#4
  | .cg => 3#4
  | .r4 => 4#4
  | .r5 => 5#4
  | .r6 => 6#4
  | .r7 => 7#4
  | .r8 => 8#4
  | .r9 => 9#4
  | .r10 => 10#4
  | .r11 => 11#4
  | .r12 => 12#4
  | .r13 => 13#4
  | .r14 => 14#4
  | .r15 => 15#4

/-- `IR[5:4]` (30_encoding.md R54). -/
def rawSrcModeOfBits (b : BitVec 2) : RawSrcMode :=
  match b.toNat with
  | 0 => .registerDirect
  | 1 => .indexed
  | 2 => .indirectRegister
  | _ => .indirectAutoincrement

/-- The bits of a raw source mode (30_encoding.md R54). -/
def rawSrcModeBits : RawSrcMode → BitVec 2
  | .registerDirect => 0#2
  | .indexed => 1#2
  | .indirectRegister => 2#2
  | .indirectAutoincrement => 3#2

/-- `IR[7]` (30_encoding.md R55). -/
def rawDstModeOfBit (b : BitVec 1) : RawDstMode :=
  if b = 1#1 then .indexed else .registerDirect

/-- The bit of a raw destination mode (30_encoding.md R55). -/
def rawDstModeBit : RawDstMode → BitVec 1
  | .registerDirect => 0#1
  | .indexed => 1#1

/-- `IR[6]` (30_encoding.md R56). -/
def widthOfBit (b : BitVec 1) : Width :=
  if b = 1#1 then .byte else .word

/-- The bit of a width (30_encoding.md R56). -/
def widthBit : Width → BitVec 1
  | .word => 0#1
  | .byte => 1#1

/-! ### The decoder -/

/-- Takes an operand's extension word from the bytes that follow, if its mode consumes one (40_decode_pipeline.md R85,
R89; little-endian, 20_memory.md R33). -/
def takeExtension (extra : Nat) (bytes : List Byte) : Except DecodeError (Option Word × List Byte) :=
  if extra = 2 then
    match bytes with
    | b0 :: b1 :: rest => .ok (some (littleWord b0 b1), rest)
    | _ => .error .missingExtensionWord
  else .ok (none, bytes)

/-- The source fields of an instruction and what follows them. -/
def takeSource (reg : Reg) (mode : RawSrcMode) (bytes : List Byte) : Except DecodeError (SrcField × List Byte) :=
  match takeExtension (extraOf (reinterpretSource reg mode)) bytes with
  | .ok (ext, rest) => .ok (⟨reg, mode, ext⟩, rest)
  | .error e => .error e

/-- The destination fields of an instruction and what follows them. -/
def takeDestination (reg : Reg) (mode : RawDstMode) (bytes : List Byte) : Except DecodeError (DstField × List Byte) :=
  match takeExtension (extraOf (reinterpretDestination reg mode)) bytes with
  | .ok (ext, rest) => .ok (⟨reg, mode, ext⟩, rest)
  | .error e => .error e

/-- The two-operand format (30_encoding.md R46): `sreg` 11:8, `dmode` 7, `bw` 6, `smode` 5:4, `dreg` 3:0; the source's
extension word comes first (R45). -/
def decodeTwo (ir : Word) (rest : List Byte) (row : Width → SrcField → DstField → Instr) :
    Except DecodeError (Instr × List Byte) :=
  match takeSource (regOfIndex (slice ir 8 4)) (rawSrcModeOfBits (slice ir 4 2)) rest with
  | .error e => .error e
  | .ok (src, rest1) =>
    match takeDestination (regOfIndex (slice ir 0 4)) (rawDstModeOfBit (slice ir 7 1)) rest1 with
    | .error e => .error e
    | .ok (dst, rest2) => .ok (row (widthOfBit (slice ir 6 1)) src dst, rest2)

/-- The one-operand format (30_encoding.md R47): `bw` 6, `smode` 5:4, `sreg` 3:0; bits 11:10 are kept and examined by
nothing (R58). -/
def decodeOne (ir : Word) (rest : List Byte) (row : BitVec 2 → Width → SrcField → Instr) :
    Except DecodeError (Instr × List Byte) :=
  match takeSource (regOfIndex (slice ir 0 4)) (rawSrcModeOfBits (slice ir 4 2)) rest with
  | .error e => .error e
  | .ok (src, rest1) => .ok (row (slice ir 10 2) (widthOfBit (slice ir 6 1)) src, rest1)

/-- A `mov` word: the row `br` when the destination register is `pc` (30_encoding.md R67, 44_emulated.md R141). -/
def movRow (w : Width) (src : SrcField) (dst : DstField) : Instr :=
  if dst.reg = .pc then .br w src dst.mode dst.ext else .mov w src dst

/-- A `bis` word: the row `dint` when the destination register is `sr` and the source's extension word is
`DINT_SRC_VALUE` (30_encoding.md R67, 44_emulated.md R142). -/
def bisRow (w : Width) (src : SrcField) (dst : DstField) : Instr :=
  if dst.reg = .sr ∧ src.ext = some config.dintSrcValue then .dint w src.reg src.mode dst.mode dst.ext
  else .bis w src dst

/-- Opcode nibble 1: the mnemonic by the selector `IR[9:7]` (30_encoding.md R51, R59; numbering decision D4, log 3). -/
def decodeOpcode1 (ir : Word) (rest : List Byte) : Except DecodeError (Instr × List Byte) :=
  match (slice ir 7 3).toNat with
  | 0 => decodeOne ir rest .rrc
  | 1 => decodeOne ir rest .swpb
  | 2 => decodeOne ir rest .rra
  | 3 => decodeOne ir rest .sxt
  | 4 => decodeOne ir rest .push
  | 5 => decodeOne ir rest .call
  | 6 => decodeOne ir rest .reti
  | _ => .ok (.invalidOpcode1Selector7 (slice ir 10 2) (slice ir 0 7), rest)

/-- Opcode nibble 2: the mnemonic by the selector `IR[11:10]` (30_encoding.md R52; decision D4, log 3). -/
def branchOfOpcode2 (ir : Word) : Instr :=
  match (slice ir 10 2).toNat with
  | 0 => .jnz (slice ir 0 10)
  | 1 => .jz (slice ir 0 10)
  | 2 => .jnc (slice ir 0 10)
  | _ => .jc (slice ir 0 10)

/-- Opcode nibble 3: the mnemonic by the selector `IR[11:10]` (30_encoding.md R52; decision D4, log 3). -/
def branchOfOpcode3 (ir : Word) : Instr :=
  match (slice ir 10 2).toNat with
  | 0 => .jn (slice ir 0 10)
  | 1 => .jge (slice ir 0 10)
  | 2 => .jl (slice ir 0 10)
  | _ => .jmp (slice ir 0 10)

/-- The opcode map after the fixed-word test (30_encoding.md R49, R50). The last arm is nibble 15: a 4-bit field has no
other value left. -/
def decodeByNibble (ir : Word) (rest : List Byte) : Except DecodeError (Instr × List Byte) :=
  match (slice ir 12 4).toNat with
  | 0 => .ok (.invalidOpcode0 (slice ir 0 12), rest)
  | 1 => decodeOpcode1 ir rest
  | 2 => .ok (branchOfOpcode2 ir, rest)
  | 3 => .ok (branchOfOpcode3 ir, rest)
  | 4 => decodeTwo ir rest movRow
  | 5 => decodeTwo ir rest .add
  | 6 => decodeTwo ir rest .addc
  | 7 => decodeTwo ir rest .subc
  | 8 => decodeTwo ir rest .sub
  | 9 => decodeTwo ir rest .cmp
  | 10 => decodeTwo ir rest .dadd
  | 11 => decodeTwo ir rest .bit
  | 12 => decodeTwo ir rest .bic
  | 13 => decodeTwo ir rest bisRow
  | 14 => decodeTwo ir rest .xor
  | _ => decodeTwo ir rest .and

/-- An instruction word and what follows it: "Special case checked first" (30_encoding.md R53), then R49. -/
def decodeWord (ir : Word) (rest : List Byte) : Except DecodeError (Instr × List Byte) :=
  if ir = config.retWord then .ok (.ret, rest) else decodeByNibble ir rest

/-- The instruction at the start of the bytes, and the bytes after it. It rejects by name what holds no whole
instruction; an invalid word is an instruction of its own row (log 17). The result is the same as if no extension byte
were read before the length is known to fit (20_memory.md R34): a rejection carries nothing it read. -/
def decode : List Byte → Except DecodeError (Instr × List Byte)
  | b0 :: b1 :: rest => decodeWord (instructionWord b0 b1) rest
  | _ => .error .noInstructionWord

/-! ### The encoder -/

/-- The two-operand format (30_encoding.md R46). -/
def encodeTwo (opcode : BitVec 4) (w : Width) (src : SrcField) (dst : DstField) : Word :=
  opcode ++ regIndex src.reg ++ rawDstModeBit dst.mode ++ widthBit w ++ rawSrcModeBits src.mode ++ regIndex dst.reg

/-- The one-operand format (30_encoding.md R47). -/
def encodeOne (sel : BitVec 3) (unexamined : BitVec 2) (w : Width) (src : SrcField) : Word :=
  1#4 ++ unexamined ++ sel ++ widthBit w ++ rawSrcModeBits src.mode ++ regIndex src.reg

/-- The branch-only format (30_encoding.md R48). -/
def encodeBranch (opcode : BitVec 4) (sel : BitVec 2) (off10 : BitVec 10) : Word :=
  opcode ++ sel ++ off10

/-- The instruction word of an instruction (30_encoding.md R46 to R53, R57, R59, R67). -/
def encodeWord : Instr → Word
  | .ret => config.retWord
  | .mov w src dst => encodeTwo 4#4 w src dst
  | .add w src dst => encodeTwo 5#4 w src dst
  | .addc w src dst => encodeTwo 6#4 w src dst
  | .subc w src dst => encodeTwo 7#4 w src dst
  | .sub w src dst => encodeTwo 8#4 w src dst
  | .cmp w src dst => encodeTwo 9#4 w src dst
  | .dadd w src dst => encodeTwo 10#4 w src dst
  | .bit w src dst => encodeTwo 11#4 w src dst
  | .bic w src dst => encodeTwo 12#4 w src dst
  | .bis w src dst => encodeTwo 13#4 w src dst
  | .xor w src dst => encodeTwo 14#4 w src dst
  | .and w src dst => encodeTwo 15#4 w src dst
  | .rrc u w src => encodeOne 0#3 u w src
  | .swpb u w src => encodeOne 1#3 u w src
  | .rra u w src => encodeOne 2#3 u w src
  | .sxt u w src => encodeOne 3#3 u w src
  | .push u w src => encodeOne 4#3 u w src
  | .call u w src => encodeOne 5#3 u w src
  | .reti u w src => encodeOne 6#3 u w src
  | .jnz off => encodeBranch 2#4 0#2 off
  | .jz off => encodeBranch 2#4 1#2 off
  | .jnc off => encodeBranch 2#4 2#2 off
  | .jc off => encodeBranch 2#4 3#2 off
  | .jn off => encodeBranch 3#4 0#2 off
  | .jge off => encodeBranch 3#4 1#2 off
  | .jl off => encodeBranch 3#4 2#2 off
  | .jmp off => encodeBranch 3#4 3#2 off
  | .br w src dmode dext => encodeTwo 4#4 w src ⟨.pc, dmode, dext⟩
  | .dint w sreg smode dmode dext => encodeTwo 13#4 w ⟨sreg, smode, none⟩ ⟨.sr, dmode, dext⟩
  | .invalidOpcode0 low => 0#4 ++ low
  | .invalidOpcode1Selector7 u low => 1#4 ++ u ++ 7#3 ++ low

/-- The extension words of an instruction in buffer order, the source's first (30_encoding.md R45). -/
def extensionWords : Instr → List Word
  | .ret => []
  | .mov _ src dst => src.ext.toList ++ dst.ext.toList
  | .add _ src dst => src.ext.toList ++ dst.ext.toList
  | .addc _ src dst => src.ext.toList ++ dst.ext.toList
  | .subc _ src dst => src.ext.toList ++ dst.ext.toList
  | .sub _ src dst => src.ext.toList ++ dst.ext.toList
  | .cmp _ src dst => src.ext.toList ++ dst.ext.toList
  | .dadd _ src dst => src.ext.toList ++ dst.ext.toList
  | .bit _ src dst => src.ext.toList ++ dst.ext.toList
  | .bic _ src dst => src.ext.toList ++ dst.ext.toList
  | .bis _ src dst => src.ext.toList ++ dst.ext.toList
  | .xor _ src dst => src.ext.toList ++ dst.ext.toList
  | .and _ src dst => src.ext.toList ++ dst.ext.toList
  | .rrc _ _ src => src.ext.toList
  | .swpb _ _ src => src.ext.toList
  | .rra _ _ src => src.ext.toList
  | .sxt _ _ src => src.ext.toList
  | .push _ _ src => src.ext.toList
  | .call _ _ src => src.ext.toList
  | .reti _ _ src => src.ext.toList
  | .jnz _ => []
  | .jz _ => []
  | .jnc _ => []
  | .jc _ => []
  | .jn _ => []
  | .jge _ => []
  | .jl _ => []
  | .jmp _ => []
  | .br _ src _ dext => src.ext.toList ++ dext.toList
  | .dint _ _ _ _ dext => config.dintSrcValue :: dext.toList
  | .invalidOpcode0 _ => []
  | .invalidOpcode1Selector7 _ _ => []

/-- The words of an instruction. -/
def encode (i : Instr) : List Word :=
  encodeWord i :: extensionWords i

/-- The bytes of an instruction in buffer order (30_encoding.md R45; 20_memory.md R32, R33). -/
def encodeBytes (i : Instr) : List Byte :=
  instructionBytes (encodeWord i) ++ (extensionWords i).flatMap littleBytes

/-! ### The host's probe -/

/-- The instruction of the bits `w` as the buffer holds it: the first word in `IWORD_ORDER`, every later word
little-endian, bits at `nbits` and above zero, `MAX_LEN` bytes in all. -/
def tableBytes (nbits w : Nat) : List Byte :=
  instructionBytes (BitVec.ofNat 16 (w % 2 ^ nbits))
    ++ littleBytes (BitVec.ofNat 16 (w % 2 ^ nbits / 2 ^ 16))
    ++ littleBytes (BitVec.ofNat 16 (w % 2 ^ nbits / 2 ^ 32))

/-- The instruction the decoder reads from an instruction whose bits are `w`. -/
def decodeTableWord (nbits w : Nat) : Option Instr :=
  match decode (tableBytes nbits w) with
  | .ok (i, _) => some i
  | .error _ => none

end Sys2Proof
end

