-- ==== Sys2Proof/Machine/Ops.lean ====
section
/-! DEFINITION. The named operations: reading the buffer, what the caller does to the inputs, the Instruction
Assembler, the Emulated-Instruction Normalizer, returning a record, and taking a failure. -/

namespace Sys2Proof.Machine

/-! ### The buffer -/

/-- `buf[a]` (00_scope.md R7), for `a` below the byte count. -/
def Memory.read : Memory → Nat → Byte
  | [], _ => Memory.background
  | (b, v) :: m, a => if b = a then v else Memory.read m a

/-- The buffer with byte `a` set to `v`, in canonical form. Only the caller does this, between calls: the block writes no
memory (20_memory.md R35). -/
def Memory.write : Memory → Nat → Byte → Memory
  | [], a, v => if v = Memory.background then [] else [(a, v)]
  | (b, x) :: m, a, v =>
    if a < b then (if v = Memory.background then (b, x) :: m else (a, v) :: (b, x) :: m)
    else if a = b then (if v = Memory.background then m else (a, v) :: m)
    else (b, x) :: Memory.write m a v

/-- The bytes written from index `a` on. -/
def Memory.writeBytes (m : Memory) (a : Nat) : List Byte → Memory
  | [] => m
  | v :: vs => Memory.writeBytes (Memory.write m a v) (a + 1) vs

/-- Cells of strictly rising index, the first at `lo` or above, none holding the background. -/
def Memory.wfFrom (lo : Nat) : Memory → Bool
  | [] => true
  | (a, v) :: m => decide (lo ≤ a) && decide (v ≠ Memory.background) && Memory.wfFrom (a + 1) m

/-- The canonical form of a buffer (log 14): equal buffers of one length are equal data. -/
def Memory.wf (m : Memory) : Bool :=
  Memory.wfFrom 0 m

/-- Every listed index lies inside a buffer of `n` bytes (20_memory.md R30). -/
def Memory.below (n : Nat) (m : Memory) : Bool :=
  m.all fun c => decide (c.1 < n)

/-- `MemRead(off, 2)`, little-endian (00_scope.md R7, 20_memory.md R33). -/
def Memory.read2 (m : Memory) (off : Nat) : Word :=
  littleWord (m.read off) (m.read (off + 1))

/-- The instruction word of a buffer of at least two bytes (20_memory.md R32, log 2). -/
def Memory.instructionWord (m : Memory) : Word :=
  Machine.instructionWord (m.read 0) (m.read 1)

/-! ### The inputs -/

/-- The state in which no call is being evaluated: IR is "undefined (not readable, not zero)" and no result stands
(70_reset_and_hazards.md R171). Whatever changes the inputs does this first, so no output is ever of other inputs. -/
def State.forgetCall (s : State) : State :=
  { s with ir := none, result := none }

/-- The caller presents a buffer and an address for the next call (60_exceptions.md R160, log 13); the outputs of a call
on earlier inputs no longer stand (70_reset_and_hazards.md R171). -/
def State.present (s : State) (bytes : List Byte) (address : Int) : State :=
  { s.forgetCall with mem := Memory.writeBytes [] 0 bytes, n := bytes.length, address := address }

/-- The fetch window: the first `MAX_LEN` bytes of the buffer, or all of a shorter one (10_state.md R11, log 15). -/
def State.window (s : State) : List Byte :=
  (List.range (min s.n config.maxLen)).map s.mem.read

/-- The state with the instruction register of the call now evaluated (10_state.md R12, 40_decode_pipeline.md R72); no
value when `n < 2` (70_reset_and_hazards.md R171). -/
def State.latchIr (s : State) : State :=
  { s with ir := if 2 ≤ s.n then some s.mem.instructionWord else none }

/-- The buffer whose first bytes are the given ones and which holds at least `MAX_LEN` bytes; the address stays, and the
outputs of a call on the earlier buffer no longer stand (70_reset_and_hazards.md R171). -/
def State.loadFirst (s : State) (bytes : List Byte) : State :=
  { s.forgetCall with mem := s.mem.writeBytes 0 bytes, n := max s.n config.maxLen }

/-! ### Returning and failing -/

/-- The state with the output of the call (10_state.md R21); the inputs and IR stay. -/
def State.setResult (c : CallResult) (s : State) : State :=
  { s with result := some c }

/-- `return r`: the call ends with the record (00_scope.md R7). -/
def State.returnRecord (r : Record) (s : State) : Host.Outcome State Fault Refusal :=
  .next (s.setResult (.record r))

/-- `raise f`, the one way a failure is taken: the call ends, its result is the tag and no partial record; nothing is
saved and nothing else changes (60_exceptions.md R154). The block has no return from a failure: the next call is
decided by its inputs alone (R155). -/
def State.raise (f : Failure) (s : State) : Host.Outcome State Fault Refusal :=
  .next (s.setResult (.failure f))

/-! ### The Instruction Assembler -/

/-- `length = 2 + source.extra_bytes + destination.extra_bytes_or_0` (40_decode_pipeline.md R87). -/
def instructionLength (src dst : Option Operand) : Nat :=
  2 + extraBytes src + extraBytes dst

/-- The operand with its value: the extension word, whole and unsigned, if its mode takes one (20_memory.md R33, R38;
40_decode_pipeline.md R89), else what was fixed during decode (R90). None if the extension word it takes is not there. -/
def fillValue (o : Operand) (ext : Option Word) : Option Operand :=
  if o.extra = 2 then ext.map fun x => { o with value := some (x.toNat : Int) } else some o

/-! ### The Emulated-Instruction Normalizer -/

/-- `mnemonic = mov and dst.reg = pc` (44_emulated.md R141). -/
def isBranchForm (r : Record) : Bool :=
  decide (r.mnemonic = .mov) && decide (r.dst.bind Operand.reg = some .pc)

/-- `mnemonic = bis and dst.reg = sr and src.value = DINT_SRC_VALUE`, the value compared as an integer: none equals no
integer (44_emulated.md R142, 40_decode_pipeline.md R94; log 5). -/
def isDintForm (r : Record) : Bool :=
  decide (r.mnemonic = .bis) && decide (r.dst.bind Operand.reg = some .sr)
    && decide (r.src.bind Operand.value = some (config.dintSrcValue.toNat : Int))

/-- The two rewrites, `br` first; "No other rewrite rules apply" (40_decode_pipeline.md R91, R92; class and operands of
the rewritten records: decision D8, log 8). -/
def normalizeRecord (r : Record) : Record :=
  if isBranchForm r then { r with mnemonic := .br, emulated := true }
  else if isDintForm r then { r with mnemonic := .dint, cls := .none, src := none, dst := none, emulated := true }
  else r

/-! ### The family templates -/

/-- The template of 41_two_operand.md R100: operands, length, extension words, then the Normalizer. An extension word
that is not there is `TruncatedInput` (40_decode_pipeline.md R88). -/
def twoOperand (m : Mnemonic) (w : Width) (src : SrcField) (dst : DstField) (s : State) :
    Host.Outcome State Fault Refusal :=
  match fillValue (sourceOperand w src.reg src.mode) src.ext,
    fillValue (destinationOperand w dst.reg dst.mode) dst.ext with
  | some a, some b =>
    State.returnRecord
      (normalizeRecord
        { address := s.address, mnemonic := m, cls := .twoOperand, src := some a, dst := some b,
          length := instructionLength (some a) (some b), emulated := false }) s
  | _, _ => State.raise .truncatedInput s

/-- The template of 42_one_operand.md R120; the operand is the record's source. -/
def oneOperand (m : Mnemonic) (w : Width) (src : SrcField) (s : State) : Host.Outcome State Fault Refusal :=
  match fillValue (sourceOperand w src.reg src.mode) src.ext with
  | some a =>
    State.returnRecord
      (normalizeRecord
        { address := s.address, mnemonic := m, cls := .oneOperand, src := some a, dst := none,
          length := instructionLength (some a) none, emulated := false }) s
  | none => State.raise .truncatedInput s

/-- The template of 43_branch_only.md R130: no extension word, no condition looked at, no target computed. -/
def branchOnly (m : Mnemonic) (off10 : BitVec 10) (s : State) : Host.Outcome State Fault Refusal :=
  State.returnRecord
    (normalizeRecord
      { address := s.address, mnemonic := m, cls := .branchOnly, src := some (branchSource off10), dst := none,
        length := instructionLength (some (branchSource off10)) none, emulated := false }) s

end Sys2Proof.Machine
end

