-- ==== Sys2Proof/Machine/BranchOnly.lean ====
section
/-! DEFINITION. The meanings of the eight branch-only mnemonics (43_branch_only.md R130 to R138): the signed offset and
nothing else; no condition is evaluated and no target is computed. -/

namespace Sys2Proof.Machine

/-- 43_branch_only.md R131. -/
def execJnz (off10 : BitVec 10) (s : State) : Host.Outcome State Fault Refusal :=
  branchOnly .jnz off10 s

/-- 43_branch_only.md R132. -/
def execJz (off10 : BitVec 10) (s : State) : Host.Outcome State Fault Refusal :=
  branchOnly .jz off10 s

/-- 43_branch_only.md R133. -/
def execJnc (off10 : BitVec 10) (s : State) : Host.Outcome State Fault Refusal :=
  branchOnly .jnc off10 s

/-- 43_branch_only.md R134. -/
def execJc (off10 : BitVec 10) (s : State) : Host.Outcome State Fault Refusal :=
  branchOnly .jc off10 s

/-- 43_branch_only.md R135. -/
def execJn (off10 : BitVec 10) (s : State) : Host.Outcome State Fault Refusal :=
  branchOnly .jn off10 s

/-- 43_branch_only.md R136. -/
def execJge (off10 : BitVec 10) (s : State) : Host.Outcome State Fault Refusal :=
  branchOnly .jge off10 s

/-- 43_branch_only.md R137. -/
def execJl (off10 : BitVec 10) (s : State) : Host.Outcome State Fault Refusal :=
  branchOnly .jl off10 s

/-- 43_branch_only.md R138. -/
def execJmp (off10 : BitVec 10) (s : State) : Host.Outcome State Fault Refusal :=
  branchOnly .jmp off10 s

end Sys2Proof.Machine
end

