-- ==== Sys2Proof/Machine/Emulated.lean ====
section
/-! DEFINITION. The meanings of the three emulated mnemonics (44_emulated.md R140 to R144). -/

namespace Sys2Proof.Machine

/-- 44_emulated.md R140: no operand, length 2, no Normalizer. -/
def execRet (s : State) : Host.Outcome State Fault Refusal :=
  State.returnRecord
    { address := s.address, mnemonic := .ret, cls := .none, src := none, dst := none, length := 2, emulated := true } s

/-- 44_emulated.md R141: the assembled record of the underlying `mov` with destination register `pc`, which the
Normalizer rewrites. -/
def execBr (w : Width) (src : SrcField) (dmode : RawDstMode) (dext : Option Word) (s : State) :
    Host.Outcome State Fault Refusal :=
  twoOperand .mov w src ⟨.pc, dmode, dext⟩ s

/-- 44_emulated.md R142: the assembled record of the underlying `bis` with destination register `sr` and source
extension word `DINT_SRC_VALUE`, which the Normalizer replaces. -/
def execDint (w : Width) (sreg : Reg) (smode : RawSrcMode) (dmode : RawDstMode) (dext : Option Word) (s : State) :
    Host.Outcome State Fault Refusal :=
  twoOperand .bis w ⟨sreg, smode, some config.dintSrcValue⟩ ⟨.sr, dmode, dext⟩ s

end Sys2Proof.Machine
end

