-- ==== Sys2Proof/Machine/Invalid.lean ====
section
/-! DEFINITION. The meanings of the two invalid rows (30_encoding.md R57, R59): the failure `InvalidOpcode` is taken, as
60_exceptions.md R152 and R154 say; the other bits of the word do not matter. -/

namespace Sys2Proof.Machine

/-- 30_encoding.md R57. -/
def execInvalidOpcode0 (_low : BitVec 12) (s : State) : Host.Outcome State Fault Refusal :=
  State.raise .invalidOpcode s

/-- 30_encoding.md R59. -/
def execInvalidOpcode1Selector7 (_unexamined : BitVec 2) (_low : BitVec 7) (s : State) :
    Host.Outcome State Fault Refusal :=
  State.raise .invalidOpcode s

end Sys2Proof.Machine
end

