-- ==== Sys2Proof/Machine/OneOperand.lean ====
section
/-! DEFINITION. The meanings of the seven one-operand mnemonics (42_one_operand.md R120 to R127). The bits `IR[11:10]`
appear nowhere in the record (30_encoding.md R58, log 18). -/

namespace Sys2Proof.Machine

/-- 42_one_operand.md R121. -/
def execRrc (_unexamined : BitVec 2) (w : Width) (src : SrcField) (s : State) : Host.Outcome State Fault Refusal :=
  oneOperand .rrc w src s

/-- 42_one_operand.md R122. -/
def execSwpb (_unexamined : BitVec 2) (w : Width) (src : SrcField) (s : State) : Host.Outcome State Fault Refusal :=
  oneOperand .swpb w src s

/-- 42_one_operand.md R123. -/
def execRra (_unexamined : BitVec 2) (w : Width) (src : SrcField) (s : State) : Host.Outcome State Fault Refusal :=
  oneOperand .rra w src s

/-- 42_one_operand.md R124. -/
def execSxt (_unexamined : BitVec 2) (w : Width) (src : SrcField) (s : State) : Host.Outcome State Fault Refusal :=
  oneOperand .sxt w src s

/-- 42_one_operand.md R125. -/
def execPush (_unexamined : BitVec 2) (w : Width) (src : SrcField) (s : State) : Host.Outcome State Fault Refusal :=
  oneOperand .push w src s

/-- 42_one_operand.md R126. -/
def execCall (_unexamined : BitVec 2) (w : Width) (src : SrcField) (s : State) : Host.Outcome State Fault Refusal :=
  oneOperand .call w src s

/-- 42_one_operand.md R127: a source operand is decoded like for the other six. -/
def execReti (_unexamined : BitVec 2) (w : Width) (src : SrcField) (s : State) : Host.Outcome State Fault Refusal :=
  oneOperand .reti w src s

end Sys2Proof.Machine
end

