-- ==== Sys2Proof/Machine/TwoOperand.lean ====
section
/-! DEFINITION. The meanings of the twelve two-operand mnemonics (41_two_operand.md R100 to R112): the record each
returns. The Normalizer, which the template applies, rewrites `mov` into `pc` and `bis` of 0xf0 to `sr` and nothing else. -/

namespace Sys2Proof.Machine

/-- 41_two_operand.md R101. -/
def execMov (w : Width) (src : SrcField) (dst : DstField) (s : State) : Host.Outcome State Fault Refusal :=
  twoOperand .mov w src dst s

/-- 41_two_operand.md R102. -/
def execAdd (w : Width) (src : SrcField) (dst : DstField) (s : State) : Host.Outcome State Fault Refusal :=
  twoOperand .add w src dst s

/-- 41_two_operand.md R103. -/
def execAddc (w : Width) (src : SrcField) (dst : DstField) (s : State) : Host.Outcome State Fault Refusal :=
  twoOperand .addc w src dst s

/-- 41_two_operand.md R104. -/
def execSubc (w : Width) (src : SrcField) (dst : DstField) (s : State) : Host.Outcome State Fault Refusal :=
  twoOperand .subc w src dst s

/-- 41_two_operand.md R105. -/
def execSub (w : Width) (src : SrcField) (dst : DstField) (s : State) : Host.Outcome State Fault Refusal :=
  twoOperand .sub w src dst s

/-- 41_two_operand.md R106. -/
def execCmp (w : Width) (src : SrcField) (dst : DstField) (s : State) : Host.Outcome State Fault Refusal :=
  twoOperand .cmp w src dst s

/-- 41_two_operand.md R107. -/
def execDadd (w : Width) (src : SrcField) (dst : DstField) (s : State) : Host.Outcome State Fault Refusal :=
  twoOperand .dadd w src dst s

/-- 41_two_operand.md R108. -/
def execBit (w : Width) (src : SrcField) (dst : DstField) (s : State) : Host.Outcome State Fault Refusal :=
  twoOperand .bit w src dst s

/-- 41_two_operand.md R109. -/
def execBic (w : Width) (src : SrcField) (dst : DstField) (s : State) : Host.Outcome State Fault Refusal :=
  twoOperand .bic w src dst s

/-- 41_two_operand.md R110. -/
def execBis (w : Width) (src : SrcField) (dst : DstField) (s : State) : Host.Outcome State Fault Refusal :=
  twoOperand .bis w src dst s

/-- 41_two_operand.md R111. -/
def execXor (w : Width) (src : SrcField) (dst : DstField) (s : State) : Host.Outcome State Fault Refusal :=
  twoOperand .xor w src dst s

/-- 41_two_operand.md R112. -/
def execAnd (w : Width) (src : SrcField) (dst : DstField) (s : State) : Host.Outcome State Fault Refusal :=
  twoOperand .and w src dst s

end Sys2Proof.Machine
end

