-- ==== Sys2Proof/Machine/Dispatch.lean ====
section
/-! DEFINITION. One arm per constructor of Instr, each one call of its meaning. -/

namespace Sys2Proof.Machine

def exec (i : Instr) (s : State) : Host.Outcome State Fault Refusal :=
  match i with
  | .ret => Sys2Proof.Machine.execRet s
  | .mov w src dst => Sys2Proof.Machine.execMov w src dst s
  | .add w src dst => Sys2Proof.Machine.execAdd w src dst s
  | .addc w src dst => Sys2Proof.Machine.execAddc w src dst s
  | .subc w src dst => Sys2Proof.Machine.execSubc w src dst s
  | .sub w src dst => Sys2Proof.Machine.execSub w src dst s
  | .cmp w src dst => Sys2Proof.Machine.execCmp w src dst s
  | .dadd w src dst => Sys2Proof.Machine.execDadd w src dst s
  | .bit w src dst => Sys2Proof.Machine.execBit w src dst s
  | .bic w src dst => Sys2Proof.Machine.execBic w src dst s
  | .bis w src dst => Sys2Proof.Machine.execBis w src dst s
  | .xor w src dst => Sys2Proof.Machine.execXor w src dst s
  | .and w src dst => Sys2Proof.Machine.execAnd w src dst s
  | .rrc u w src => Sys2Proof.Machine.execRrc u w src s
  | .swpb u w src => Sys2Proof.Machine.execSwpb u w src s
  | .rra u w src => Sys2Proof.Machine.execRra u w src s
  | .sxt u w src => Sys2Proof.Machine.execSxt u w src s
  | .push u w src => Sys2Proof.Machine.execPush u w src s
  | .call u w src => Sys2Proof.Machine.execCall u w src s
  | .reti u w src => Sys2Proof.Machine.execReti u w src s
  | .jnz off10 => Sys2Proof.Machine.execJnz off10 s
  | .jz off10 => Sys2Proof.Machine.execJz off10 s
  | .jnc off10 => Sys2Proof.Machine.execJnc off10 s
  | .jc off10 => Sys2Proof.Machine.execJc off10 s
  | .jn off10 => Sys2Proof.Machine.execJn off10 s
  | .jge off10 => Sys2Proof.Machine.execJge off10 s
  | .jl off10 => Sys2Proof.Machine.execJl off10 s
  | .jmp off10 => Sys2Proof.Machine.execJmp off10 s
  | .br w src dmode dext => Sys2Proof.Machine.execBr w src dmode dext s
  | .dint w sreg smode dmode dext => Sys2Proof.Machine.execDint w sreg smode dmode dext s
  | .invalidOpcode0 low => Sys2Proof.Machine.execInvalidOpcode0 low s
  | .invalidOpcode1Selector7 u low => Sys2Proof.Machine.execInvalidOpcode1Selector7 u low s

end Sys2Proof.Machine
end

