-- ==== Sys2Proof/Machine/Step.lean ====
section
/-! DEFINITION. One step is one decode call (10_state.md R27, 70_reset_and_hazards.md R176, R177). -/

namespace Sys2Proof.Machine

/-- One decode call on the inputs the state holds (40_decode_pipeline.md R70): form IR, decode the fetch window, run the
instruction's meaning. Bytes that hold no whole instruction are `TruncatedInput` (60_exceptions.md R151). The inputs
stay: the block holds no program counter and advances none (10_state.md R14, log 20). -/
def step (s : State) : Host.Outcome State Fault Refusal :=
  match decode s.window with
  | .ok (i, _) => exec i s.latchIr
  | .error _ => State.raise .truncatedInput s.latchIr

/-- The state whose buffer begins with the instruction of the bits `w` (the caller's load, log 13). -/
def State.withFetchWord (s : State) (nbits w : Nat) : State :=
  s.loadFirst (tableBytes nbits w)

end Sys2Proof.Machine
end

