-- ==== Sys2Proof/Machine/Pipeline.lean ====
section
/-! DEFINITION. `decode(buf, n, address)` written as 40_decode_pipeline.md R70 writes it, stage by stage on the word IR
and the buffer, without the type Instr. The step is stated equal to it (obligation StepIsTheDecodeFunction). -/

namespace Sys2Proof.Machine

/-- `classify` on the three fields it looks at: the opcode nibble, the selector of opcode 1 and the selector of opcodes
2 and 3 (40_decode_pipeline.md R74); none is `InvalidOpcode`. -/
def classifyFields (opc : BitVec 4) (sel1 : BitVec 3) (sel23 : BitVec 2) : Option (Mnemonic × InstrClass) :=
  if opc.toNat = 0 then none
  else if opc.toNat = 1 then
    ([Mnemonic.rrc, .swpb, .rra, .sxt, .push, .call, .reti][sel1.toNat]?).map fun m => (m, .oneOperand)
  else if opc.toNat = 2 then
    ([Mnemonic.jnz, .jz, .jnc, .jc][sel23.toNat]?).map fun m => (m, .branchOnly)
  else if opc.toNat = 3 then
    ([Mnemonic.jn, .jge, .jl, .jmp][sel23.toNat]?).map fun m => (m, .branchOnly)
  else
    ([Mnemonic.mov, .add, .addc, .subc, .sub, .cmp, .dadd, .bit, .bic, .bis, .xor, .and][opc.toNat - 4]?).map
      fun m => (m, .twoOperand)

/-- `classify(IR)` (40_decode_pipeline.md R74). -/
def classify (ir : Word) : Option (Mnemonic × InstrClass) :=
  classifyFields (slice ir 12 4) (slice ir 7 3) (slice ir 10 2)

/-- `source_operand(class, IR)` (40_decode_pipeline.md R75). -/
def sourceOfWord (cls : InstrClass) (ir : Word) : Operand :=
  sourceOperand (widthOfBit (slice ir 6 1))
    (regOfIndex (if cls = .oneOperand then slice ir 0 4 else slice ir 8 4)) (rawSrcModeOfBits (slice ir 4 2))

/-- `destination_operand(IR)` (40_decode_pipeline.md R77). -/
def destinationOfWord (ir : Word) : Operand :=
  destinationOperand (widthOfBit (slice ir 6 1)) (regOfIndex (slice ir 0 4)) (rawDstModeOfBit (slice ir 7 1))

/-- Steps 5 and 6 of R70: the operands of a classified word, before any extension word is read. -/
def operandsOfWord (cls : InstrClass) (ir : Word) : Operand × Option Operand :=
  (if cls = .branchOnly then branchSource (slice ir 0 10) else sourceOfWord cls ir,
    if cls = .twoOperand then some (destinationOfWord ir) else none)

/-- An operand given its extension word from the buffer offset `off`, if it takes one (R70 step 9). -/
def readExtension (buf : Memory) (off : Nat) (o : Operand) : Operand :=
  if o.extra = 2 then { o with value := some ((buf.read2 off).toNat : Int) } else o

/-- Steps 7 to 10 of R70: length, buffer check, extension words, Normalizer. -/
def assembleWord (buf : Memory) (n : Nat) (address : Int) (m : Mnemonic) (cls : InstrClass) (src : Operand)
    (dst : Option Operand) : CallResult :=
  let length := instructionLength (some src) dst
  if n < length then .failure .truncatedInput
  else
    .record
      (normalizeRecord
        { address := address, mnemonic := m, cls := cls, src := some (readExtension buf 2 src)
          dst := dst.map (readExtension buf (2 + src.extra)), length := length, emulated := false })

/-- `decode(buf, n, address)` (40_decode_pipeline.md R70). -/
def decodeCall (buf : Memory) (n : Nat) (address : Int) : CallResult :=
  if n < 2 then .failure .truncatedInput
  else
    let ir := buf.instructionWord
    if ir = config.retWord then
      .record
        { address := address, mnemonic := .ret, cls := .none, src := none, dst := none, length := 2, emulated := true }
    else
      match classify ir with
      | none => .failure .invalidOpcode
      | some (m, cls) =>
        assembleWord buf n address m cls (operandsOfWord cls ir).1 (operandsOfWord cls ir).2

end Sys2Proof.Machine
end

