-- ==== Sys2Proof/Machine/Tables.lean ====
section
/-! DEFINITION. The spec's tables as data: the resolved mode tables (40_decode_pipeline.md R84), the columns of the mode
table (10_state.md R19), the length table (30_encoding.md R64) and the opcode table (30_encoding.md R68). The decoder does
not read them: statements hold the decoder against them. -/

namespace Sys2Proof.Machine

/-- The first table of 40_decode_pipeline.md R84, one row per register, one column per `IR[5:4]`. -/
def sourceModeRow : Reg → List AddrMode
  | .pc => [.registerDirect, .symbolic, .indirectRegister, .immediate]
  | .sp => [.registerDirect, .indexed, .indirectRegister, .indirectAutoincrement]
  | .sr => [.registerDirect, .absolute, .constant4, .constant8]
  | .cg => [.constant0, .constant1, .constant2, .constantNeg1]
  | _ => [.registerDirect, .indexed, .indirectRegister, .indirectAutoincrement]

/-- The second table of 40_decode_pipeline.md R84, one row per register, one column per `IR[7]`. -/
def destinationModeRow : Reg → List AddrMode
  | .sr => [.registerDirect, .absolute]
  | _ => [.registerDirect, .indexed]

/-- The `extra` column of 10_state.md R19. -/
def extraColumn (m : AddrMode) : Nat :=
  if m ∈ [AddrMode.indexed, .symbolic, .immediate, .absolute] then 2 else 0

/-- The `value` column of 10_state.md R19 for an operand with a register, given its extension word as an integer. -/
def valueColumn (m : AddrMode) (ext : Option Int) : Option Int :=
  if m ∈ [AddrMode.registerDirect, .indirectRegister, .indirectAutoincrement] then none
  else if extraColumn m = 2 then ext
  else
    ([(AddrMode.constant0, (0 : Int)), (.constant1, 1), (.constant2, 2), (.constantNeg1, -1), (.constant4, 4),
        (.constant8, 8)].find? fun p => decide (p.1 = m)).map Prod.snd

/-- An operand with a register as the tables R84 and R19 give it. -/
def tabulatedOperand (w : Width) (reg : Reg) (m : AddrMode) (ext : Option Word) : Operand :=
  { mode := m, reg := some reg, width := w, value := valueColumn m (ext.map fun x => (x.toNat : Int)),
    extra := extraColumn m }

/-- The source operand of the table of R84, its mode at column `IR[5:4]` of its register's row. -/
def tabulatedSource (w : Width) (f : SrcField) : Operand :=
  tabulatedOperand w f.reg ((sourceModeRow f.reg).getD (rawSrcModeBits f.mode).toNat .pcRelativeOffset) f.ext

/-- The destination operand of the table of R84, its mode at column `IR[7]` of its register's row. -/
def tabulatedDestination (w : Width) (f : DstField) : Operand :=
  tabulatedOperand w f.reg ((destinationModeRow f.reg).getD (rawDstModeBit f.mode).toNat .pcRelativeOffset) f.ext

/-- The record of the template of 41_two_operand.md R100, its operands and length taken from the tables. -/
def tabulatedTwo (address : Int) (m : Mnemonic) (emulated : Bool) (w : Width) (src : SrcField) (dst : DstField) :
    Record :=
  { address := address, mnemonic := m, cls := .twoOperand, src := some (tabulatedSource w src)
    dst := some (tabulatedDestination w dst)
    length := 2 + (tabulatedSource w src).extra + (tabulatedDestination w dst).extra, emulated := emulated }

/-- The record of the template of 42_one_operand.md R120, its operand and length taken from the tables. -/
def tabulatedOne (address : Int) (m : Mnemonic) (w : Width) (src : SrcField) : Record :=
  { address := address, mnemonic := m, cls := .oneOperand, src := some (tabulatedSource w src), dst := none
    length := 2 + (tabulatedSource w src).extra, emulated := false }

/-- The record of the template of 43_branch_only.md R130, its value the offset field as a two's-complement number. -/
def tabulatedBranch (address : Int) (m : Mnemonic) (off10 : BitVec 10) : Record :=
  { address := address, mnemonic := m, cls := .branchOnly
    src := some { mode := .pcRelativeOffset, reg := none, width := .word, value := some off10.toInt, extra := 0 }
    dst := none, length := 2, emulated := false }

/-- A record without operands, of class none (44_emulated.md R140, R142). -/
def bareRecord (address : Int) (m : Mnemonic) (length : Nat) : Record :=
  { address := address, mnemonic := m, cls := .none, src := none, dst := none, length := length, emulated := true }

/-- `e_s` of 30_encoding.md R64, for the raw source mode and source register. -/
def lengthTableSource (smode : BitVec 2) (sreg : BitVec 4) : Nat :=
  if (smode = 1#2 ∧ sreg ≠ 3#4) ∨ (smode = 3#2 ∧ sreg = 0#4) then 2 else 0

/-- The length table of 30_encoding.md R64: a function of the instruction word alone; none for a word that fails
classification. -/
def lengthTable (ir : Word) : Option Nat :=
  if ir = config.retWord then some 2
  else if slice ir 12 4 = 0#4 then none
  else if slice ir 12 4 = 1#4 then
    if slice ir 7 3 = 7#3 then none else some (2 + lengthTableSource (slice ir 4 2) (slice ir 0 4))
  else if slice ir 12 4 = 2#4 ∨ slice ir 12 4 = 3#4 then some 2
  else some (2 + lengthTableSource (slice ir 4 2) (slice ir 8 4) + if slice ir 7 1 = 1#1 then 2 else 0)

/-- A row of spec/opcode_table.json: its mnemonic, `match`, `mask` and `priority` (30_encoding.md R68). -/
structure TableRow where
  mnemonic : String
  pattern : Word
  mask : Word
  priority : Nat
deriving DecidableEq, Repr

/-- `(IR & mask) = match`. -/
def TableRow.matchesWord (r : TableRow) (ir : Word) : Bool :=
  decide (ir &&& r.mask = r.pattern)

/-- The two-operand rows of spec/opcode_table.json. -/
def twoOperandRows : List TableRow :=
  [⟨"mov", 0x4000, 0xF000, 1⟩, ⟨"add", 0x5000, 0xF000, 1⟩, ⟨"addc", 0x6000, 0xF000, 1⟩, ⟨"subc", 0x7000, 0xF000, 1⟩,
    ⟨"sub", 0x8000, 0xF000, 1⟩, ⟨"cmp", 0x9000, 0xF000, 1⟩, ⟨"dadd", 0xA000, 0xF000, 1⟩, ⟨"bit", 0xB000, 0xF000, 1⟩,
    ⟨"bic", 0xC000, 0xF000, 1⟩, ⟨"bis", 0xD000, 0xF000, 1⟩, ⟨"xor", 0xE000, 0xF000, 1⟩, ⟨"and", 0xF000, 0xF000, 1⟩]

/-- The one-operand rows of spec/opcode_table.json. -/
def oneOperandRows : List TableRow :=
  [⟨"rrc", 0x1000, 0xF380, 1⟩, ⟨"swpb", 0x1080, 0xF380, 1⟩, ⟨"rra", 0x1100, 0xF380, 1⟩, ⟨"sxt", 0x1180, 0xF380, 1⟩,
    ⟨"push", 0x1200, 0xF380, 1⟩, ⟨"call", 0x1280, 0xF380, 1⟩, ⟨"reti", 0x1300, 0xF380, 1⟩]

/-- The branch-only rows of spec/opcode_table.json. -/
def branchOnlyRows : List TableRow :=
  [⟨"jnz", 0x2000, 0xFC00, 1⟩, ⟨"jz", 0x2400, 0xFC00, 1⟩, ⟨"jnc", 0x2800, 0xFC00, 1⟩, ⟨"jc", 0x2C00, 0xFC00, 1⟩,
    ⟨"jn", 0x3000, 0xFC00, 1⟩, ⟨"jge", 0x3400, 0xFC00, 1⟩, ⟨"jl", 0x3800, 0xFC00, 1⟩, ⟨"jmp", 0x3C00, 0xFC00, 1⟩]

/-- The two invalid rows of spec/opcode_table.json. -/
def invalidRows : List TableRow :=
  [⟨"invalid__opcode_0", 0x0000, 0xF000, 1⟩, ⟨"invalid__opcode_1_selector_7", 0x1380, 0xF380, 1⟩]

/-- The rows of priority 1, of which every word matches exactly one (30_encoding.md R68). -/
def priorityOneRows : List TableRow :=
  twoOperandRows ++ (oneOperandRows ++ (branchOnlyRows ++ invalidRows))

/-- The rows of priority 0 and 2: the fixed word before everything, the two rewrites after a `mov` or `bis` row. -/
def emulatedRows : List TableRow :=
  [⟨"ret", 0x4130, 0xFFFF, 0⟩, ⟨"br", 0x4000, 0xF00F, 2⟩, ⟨"dint", 0xD002, 0xF00F, 2⟩]

/-- The name of an instruction's row in spec/opcode_table.json. -/
def rowName : Instr → String
  | .ret => "ret"
  | .mov _ _ _ => "mov"
  | .add _ _ _ => "add"
  | .addc _ _ _ => "addc"
  | .subc _ _ _ => "subc"
  | .sub _ _ _ => "sub"
  | .cmp _ _ _ => "cmp"
  | .dadd _ _ _ => "dadd"
  | .bit _ _ _ => "bit"
  | .bic _ _ _ => "bic"
  | .bis _ _ _ => "bis"
  | .xor _ _ _ => "xor"
  | .and _ _ _ => "and"
  | .rrc _ _ _ => "rrc"
  | .swpb _ _ _ => "swpb"
  | .rra _ _ _ => "rra"
  | .sxt _ _ _ => "sxt"
  | .push _ _ _ => "push"
  | .call _ _ _ => "call"
  | .reti _ _ _ => "reti"
  | .jnz _ => "jnz"
  | .jz _ => "jz"
  | .jnc _ => "jnc"
  | .jc _ => "jc"
  | .jn _ => "jn"
  | .jge _ => "jge"
  | .jl _ => "jl"
  | .jmp _ => "jmp"
  | .br _ _ _ _ => "br"
  | .dint _ _ _ _ _ => "dint"
  | .invalidOpcode0 _ => "invalid__opcode_0"
  | .invalidOpcode1Selector7 _ _ => "invalid__opcode_1_selector_7"

/-- The name of the priority-1 row an instruction's word matches: the underlying row of an emulated mnemonic. -/
def nativeRowName : Instr → String
  | .ret => "mov"
  | .br _ _ _ _ => "mov"
  | .dint _ _ _ _ _ => "bis"
  | i => rowName i

end Sys2Proof.Machine
end

