-- ==== Sys2Proof/Machine/Flags.lean ====
section
/-! DEFINITION. The block has no status flags and no condition codes, sets none and reads none (10_state.md R22). What
stands here is the one status output it has: the number of a call's outcome (60_exceptions.md R150). -/

namespace Sys2Proof.Machine

/-- `FAIL_CODES`: 1 and 2 (60_exceptions.md R150; the numbers are the spec's decision D12, log 22). -/
def failureCode : Failure → Nat
  | .truncatedInput => 1
  | .invalidOpcode => 2

/-- The status output of an outcome: 0 for success (60_exceptions.md R150, log 22). -/
def statusCode : CallResult → Nat
  | .record _ => 0
  | .failure f => failureCode f

/-- The status output of the block: none while no call has been evaluated on the inputs held
(70_reset_and_hazards.md R171). -/
def State.status (s : State) : Option Nat :=
  s.result.map statusCode

end Sys2Proof.Machine
end

