-- ==== Sys2Proof/Machine/Record.lean ====
section
/-! DEFINITION. What a returned record is like: the mnemonic as a string (30_encoding.md R66), and the invariants of
every Operand (10_state.md R19, R20) and every record (10_state.md R16). -/

namespace Sys2Proof.Machine

/-- The "lowercase identifier string" of a mnemonic (30_encoding.md R66). -/
def Mnemonic.text : Mnemonic → String
  | .mov => "mov"
  | .add => "add"
  | .addc => "addc"
  | .subc => "subc"
  | .sub => "sub"
  | .cmp => "cmp"
  | .dadd => "dadd"
  | .bit => "bit"
  | .bic => "bic"
  | .bis => "bis"
  | .xor => "xor"
  | .and => "and"
  | .rrc => "rrc"
  | .swpb => "swpb"
  | .rra => "rra"
  | .sxt => "sxt"
  | .push => "push"
  | .call => "call"
  | .reti => "reti"
  | .jnz => "jnz"
  | .jz => "jz"
  | .jnc => "jnc"
  | .jc => "jc"
  | .jn => "jn"
  | .jge => "jge"
  | .jl => "jl"
  | .jmp => "jmp"
  | .ret => "ret"
  | .br => "br"
  | .dint => "dint"

/-- The class of the records of a mnemonic (30_encoding.md R66; `br` keeps the class of `mov`, `dint` has class none:
decision D8, log 8). -/
def Mnemonic.recordClass : Mnemonic → InstrClass
  | .mov | .add | .addc | .subc | .sub | .cmp | .dadd | .bit | .bic | .bis | .xor | .and | .br => .twoOperand
  | .rrc | .swpb | .rra | .sxt | .push | .call | .reti => .oneOperand
  | .jnz | .jz | .jnc | .jc | .jn | .jge | .jl | .jmp => .branchOnly
  | .ret | .dint => .none

/-- An extension-word value, 0..65535. -/
def isWordValue : Option Int → Bool
  | some v => decide (0 ≤ v) && decide (v ≤ 65535)
  | none => false

/-- A branch offset, -512..511. -/
def isOffsetValue : Option Int → Bool
  | some v => decide (-512 ≤ v) && decide (v ≤ 511)
  | none => false

/-- The `value` column of 10_state.md R19. -/
def valueInColumn (m : AddrMode) (v : Option Int) : Bool :=
  match m with
  | .registerDirect | .indirectRegister | .indirectAutoincrement => decide (v = none)
  | .indexed | .symbolic | .immediate | .absolute => isWordValue v
  | .constant0 => decide (v = some 0)
  | .constant1 => decide (v = some 1)
  | .constant2 => decide (v = some 2)
  | .constantNeg1 => decide (v = some (-1))
  | .constant4 => decide (v = some 4)
  | .constant8 => decide (v = some 8)
  | .pcRelativeOffset => isOffsetValue v

/-- The registers `sp, r4..r15`, which are never reinterpreted (40_decode_pipeline.md R83). -/
def isPlain : Option Reg → Bool
  | some r => decide (r ≠ .pc) && decide (r ≠ .sr) && decide (r ≠ .cg)
  | none => false

/-- The `reg` column of 10_state.md R19 for a source operand. -/
def sourceRegInColumn (m : AddrMode) (r : Option Reg) : Bool :=
  match m with
  | .registerDirect => r.isSome && decide (r ≠ some .cg)
  | .indexed => isPlain r
  | .indirectRegister => isPlain r || decide (r = some .pc)
  | .indirectAutoincrement => isPlain r
  | .symbolic | .immediate => decide (r = some .pc)
  | .absolute | .constant4 | .constant8 => decide (r = some .sr)
  | .constant0 | .constant1 | .constant2 | .constantNeg1 => decide (r = some .cg)
  | .pcRelativeOffset => decide (r = none)

/-- The `reg` column of 10_state.md R19 for a destination operand (under `SR_ABSOLUTE_ONLY`, log 4). -/
def destinationRegInColumn (m : AddrMode) (r : Option Reg) : Bool :=
  match m with
  | .registerDirect => r.isSome
  | .indexed => r.isSome && decide (r ≠ some .sr)
  | .absolute => decide (r = some .sr)
  | _ => false

/-- The invariants of a source operand (10_state.md R19, R20 a to c). -/
def Operand.wfSource (o : Operand) : Bool :=
  decide (o.extra = extraOf o.mode) && valueInColumn o.mode o.value && sourceRegInColumn o.mode o.reg

/-- The invariants of a destination operand (10_state.md R19, R20 a to c). -/
def Operand.wfDestination (o : Operand) : Bool :=
  decide (o.extra = extraOf o.mode) && valueInColumn o.mode o.value && destinationRegInColumn o.mode o.reg

/-- The operands a class holds, each well-formed, both of one width (10_state.md R16 items 1 to 3, R20 e). A branch-only
operand is the PC-relative offset and no other class's is (10_state.md R20 b). -/
def operandsFitClass (cls : InstrClass) (src dst : Option Operand) : Bool :=
  match cls, src, dst with
  | .twoOperand, some a, some b =>
    a.wfSource && decide (a.mode ≠ .pcRelativeOffset) && b.wfDestination && decide (a.width = b.width)
  | .oneOperand, some a, none => a.wfSource && decide (a.mode ≠ .pcRelativeOffset)
  | .branchOnly, some a, none => a.wfSource && decide (a.mode = .pcRelativeOffset)
  | .none, none, none => true
  | _, _, _ => false

/-- 10_state.md R16 item 4: the length by the record's operands; a `dint` record keeps the length, 4 or 6, of the `bis`
it was. -/
def lengthFits (r : Record) : Bool :=
  if r.mnemonic = .dint then decide (r.length = 4) || decide (r.length = 6)
  else decide (r.length = 2 + extraBytes r.src + extraBytes r.dst)

/-- The invariants of a returned record (10_state.md R16; items 6 and 7 hold by the class of the mnemonic, the operands
and the length). -/
def Record.wf (r : Record) : Bool :=
  decide (r.cls = r.mnemonic.recordClass)
    && operandsFitClass r.cls r.src r.dst
    && lengthFits r
    && decide (r.emulated = decide (r.mnemonic = .ret ∨ r.mnemonic = .br ∨ r.mnemonic = .dint))
    && (decide (r.mnemonic ≠ .br) || decide (r.dst.bind Operand.reg = some .pc))

/-- What a call may return: a well-formed record, or a failure. -/
def CallResult.wf : CallResult → Bool
  | .record r => r.wf
  | .failure _ => true

/-- The outcome with another `address` in its record, if it is one: what a call at that address returns
(40_decode_pipeline.md R97). -/
def CallResult.withAddress (a : Int) : CallResult → CallResult
  | .record r => .record { r with address := a }
  | .failure f => .failure f

end Sys2Proof.Machine
end

