-- ==== Sys2Proof/Safety.lean ====
section
/-! DEFINITION. What claims call the invariant of a state and a run that never stops. -/

namespace Sys2Proof

open Sys2Proof.Machine

/-- No call has been evaluated on the inputs the state holds: no IR is readable and no result stands
(70_reset_and_hazards.md R171). -/
def HoldsNoCall (s : State) : Prop :=
  s.ir = none ∧ s.result = none

/-- The outputs are those of the call on the inputs the state holds: IR is `MemRead(0, 2)` of this buffer, not readable
when `n < 2`, and the result is the decode function of these inputs (70_reset_and_hazards.md R171). -/
def HoldsCurrentCall (s : State) : Prop :=
  s.ir = (if 2 ≤ s.n then some s.mem.instructionWord else none) ∧
    s.result = some (decodeCall s.mem s.n s.address)

/-- The invariant of the state: the buffer is in canonical form and lists no byte outside its `n` bytes (20_memory.md
R30, log 14); no output stands, or those of the call on the current inputs do (70_reset_and_hazards.md R171); and a result
that stands satisfies the invariants of a returned record (10_state.md R16, R19, R20). -/
def StateInv (s : State) : Prop :=
  s.mem.wf = true ∧ s.mem.below s.n = true ∧ (HoldsNoCall s ∨ HoldsCurrentCall s) ∧
    ∀ c, s.result = some c → c.wf = true

/-- The call on the inputs of `s` ends with the outcome `c`: the step answers the state in which IR is latched and the
result is `c`, and nothing else has changed (60_exceptions.md R154 for a failure, 10_state.md R15 for a record). -/
def Answers (s : State) (c : CallResult) : Prop :=
  step s = .next { s with ir := if 2 ≤ s.n then some s.mem.instructionWord else none, result := some c }

/-- A run of the machine from `s` that no fault and no refusal ends, however long it is: "no exception of the host, no
hang" (10_state.md R21). -/
def NeverStops (s : State) : Prop :=
  ∀ k, ∃ t, Host.Core.run core k s = .next t

end Sys2Proof
end

