-- ==== Sys2Proof/WellFormed.lean ====
section
/-! DEFINITION. Which terms of Instr are instructions of the encoding: an operand holds an extension word exactly if its
final mode takes one (30_encoding.md R62, 40_decode_pipeline.md R85), and an instruction is written under the row its
words belong to (30_encoding.md R67, R68). -/

namespace Sys2Proof

open Sys2Proof.Machine

/-- The source holds an extension word exactly if its final mode takes one. -/
def SrcField.ok (f : SrcField) : Bool :=
  f.ext.isSome == decide (extraOf (reinterpretSource f.reg f.mode) = 2)

/-- The destination holds an extension word exactly if its final mode takes one. -/
def DstField.ok (f : DstField) : Bool :=
  f.ext.isSome == decide (extraOf (reinterpretDestination f.reg f.mode) = 2)

/-- The operands of an instruction hold the extension words their modes take. -/
def Instr.operandsOk : Instr → Bool
  | .ret => true
  | .mov _ src dst => src.ok && dst.ok
  | .add _ src dst => src.ok && dst.ok
  | .addc _ src dst => src.ok && dst.ok
  | .subc _ src dst => src.ok && dst.ok
  | .sub _ src dst => src.ok && dst.ok
  | .cmp _ src dst => src.ok && dst.ok
  | .dadd _ src dst => src.ok && dst.ok
  | .bit _ src dst => src.ok && dst.ok
  | .bic _ src dst => src.ok && dst.ok
  | .bis _ src dst => src.ok && dst.ok
  | .xor _ src dst => src.ok && dst.ok
  | .and _ src dst => src.ok && dst.ok
  | .rrc _ _ src => src.ok
  | .swpb _ _ src => src.ok
  | .rra _ _ src => src.ok
  | .sxt _ _ src => src.ok
  | .push _ _ src => src.ok
  | .call _ _ src => src.ok
  | .reti _ _ src => src.ok
  | .jnz _ => true
  | .jz _ => true
  | .jnc _ => true
  | .jc _ => true
  | .jn _ => true
  | .jge _ => true
  | .jl _ => true
  | .jmp _ => true
  | .br _ src dmode dext => src.ok && DstField.ok ⟨.pc, dmode, dext⟩
  | .dint _ sreg smode dmode dext =>
    SrcField.ok ⟨sreg, smode, some config.dintSrcValue⟩ && DstField.ok ⟨.sr, dmode, dext⟩
  | .invalidOpcode0 _ => true
  | .invalidOpcode1Selector7 _ _ => true

/-- The words of the instruction belong to its own row: a `mov` into `pc` is written `br`, a `bis` of `DINT_SRC_VALUE`
to `sr` is written `dint`, and the word `RET_WORD` is written `ret` (30_encoding.md R67). -/
def Instr.rowOk (i : Instr) : Bool :=
  match i with
  | .ret => true
  | .mov w src dst => decide (movRow w src dst = i) && decide (encodeWord i ≠ config.retWord)
  | .bis w src dst => decide (bisRow w src dst = i) && decide (encodeWord i ≠ config.retWord)
  | _ => decide (encodeWord i ≠ config.retWord)

/-- A well-formed instruction. -/
def Instr.wf (i : Instr) : Bool :=
  i.operandsOk && i.rowOk

end Sys2Proof
end

