-- ==== Sys2Proof/Certificates/Slice0/Obligations.lean ====
section
/-! DEFINITION. The statements about this model, for the provers. `Answers s c` (Safety.lean) says that the step at `s`
answers the next state in which IR is latched, the result is `c` and nothing else has changed. IR is the word of the
first two bytes; its byte order is the spec's decision D2 (log 2), which every statement about a step rests on. -/

open Sys2Proof Sys2Proof.Machine

/-! ### Encoding -/

/-- Every well-formed instruction is read back from its bytes, with every operand and extension word, whatever follows
it (30_encoding.md R45 to R53, R57, R59, R67; the value of the return word is log 1's, the field numberings log 3's). -/
def Obligations.DecodeOfEncodeIsIdentity : Prop :=
  ∀ (i : Instr) (rest : List Byte), i.wf = true → decode (encodeBytes i ++ rest) = .ok (i, rest)

/-- What the decoder reads is a well-formed instruction, and its bytes are the ones read: bytes have one meaning and no
bit is dropped, the bits no rule examines included (30_encoding.md R45, R58). -/
def Obligations.EncodeOfDecodeIsIdentity : Prop :=
  ∀ (bytes : List Byte) (i : Instr) (rest : List Byte),
    decode bytes = .ok (i, rest) → bytes = encodeBytes i ++ rest ∧ i.wf = true

/-- "every one of the 65536 words matches exactly one priority-1 row" (30_encoding.md R68). -/
def Obligations.EveryWordMatchesOneTableRow : Prop :=
  ∀ ir : Word, (priorityOneRows.filter fun r => r.matchesWord ir).length = 1

/-- The decoder's instruction stands in the one priority-1 row its word matches; it is `ret` exactly on the fixed word,
`br` exactly on the other words of the row `br`, and it is `dint` only on words of the row `dint` (30_encoding.md R67, R68;
the value 0x4130 is log 1's). -/
def Obligations.DecoderAgreesWithTheOpcodeTable : Prop :=
  ∀ (b0 b1 : Byte) (tail : List Byte) (i : Instr) (rest : List Byte), decode (b0 :: b1 :: tail) = .ok (i, rest) →
    ((priorityOneRows.filter fun r => r.matchesWord (instructionWord b0 b1)).map TableRow.mnemonic = [nativeRowName i]) ∧
    (rowName i = "ret" ↔ instructionWord b0 b1 = 0x4130#16) ∧
    (rowName i = "br" ↔ instructionWord b0 b1 &&& 0xF00F#16 = 0x4000#16 ∧ instructionWord b0 b1 ≠ 0x4130#16) ∧
    (rowName i = "dint" → instructionWord b0 b1 &&& 0xF00F#16 = 0xD002#16)

/-- One word of each family, written out from its encoding, with its extension words (30_encoding.md R46 to R53, R57,
R59, R67). -/
def Obligations.WordsOfEachFamilyDecode : Prop :=
  decode [0x30#8, 0x41#8] = .ok (.ret, []) ∧
  decode [0x92#8, 0x45#8, 0x34#8, 0x12#8, 0x78#8, 0x56#8] =
    .ok (.mov .word ⟨.r5, .indexed, some 0x1234#16⟩ ⟨.sr, .indexed, some 0x5678#16⟩, []) ∧
  decode [0x64#8, 0x11#8] = .ok (.rra 0#2 .byte ⟨.r4, .indirectRegister, none⟩, []) ∧
  decode [0xFE#8, 0x23#8] = .ok (.jnz 0x3FE#10, []) ∧
  decode [0x30#8, 0x40#8, 0x00#8, 0x80#8] =
    .ok (.br .word ⟨.pc, .indirectAutoincrement, some 0x8000#16⟩ .registerDirect none, []) ∧
  decode [0x32#8, 0xD0#8, 0xF0#8, 0x00#8] = .ok (.dint .word .pc .indirectAutoincrement .registerDirect none, []) ∧
  decode [0x34#8, 0x0A#8] = .ok (.invalidOpcode0 0xA34#12, []) ∧
  decode [0x80#8, 0x13#8] = .ok (.invalidOpcode1Selector7 0#2 0#7, [])

/-! ### The step as a whole -/

/-- A step is the decode function of 40_decode_pipeline.md R70, on every state. Both take the spec's decisions D1 to D9:
the return word (log 1), the byte order of the first word (log 2), the numberings (log 3), the destination reading (log 4),
the `dint` literal and its scope (log 5), absent values (log 6), the branch width (log 7) and the rewritten records
(log 8). -/
def Obligations.StepIsTheDecodeFunction : Prop :=
  ∀ s : State, Answers s (decodeCall s.mem s.n s.address)

/-- A step runs the instruction its fetch window decodes to, at the state with IR latched; bytes that hold no whole
instruction are `TruncatedInput`. -/
def Obligations.StepRunsTheDecodedInstruction : Prop :=
  (∀ (s : State) (i : Instr) (rest : List Byte), decode s.window = .ok (i, rest) →
    step s = exec i { s with ir := some s.mem.instructionWord }) ∧
  (∀ (s : State) (e : DecodeError), decode s.window = .error e → Answers s (.failure .truncatedInput))

/-- Every call returns exactly one outcome: a record, `TruncatedInput` or `InvalidOpcode` (10_state.md R21). -/
def Obligations.EveryCallReturnsOneOutcome : Prop :=
  ∀ s : State, ∃ c, Answers s c ∧ (∀ c', Answers s c' → c' = c) ∧
    ((∃ r, c = .record r) ∨ c = .failure .truncatedInput ∨ c = .failure .invalidOpcode)

/-- No run ever ends in a fault or a refusal (10_state.md R21, 40_decode_pipeline.md R96). -/
def Obligations.NoRunEverStops : Prop :=
  ∀ s : State, NeverStops s

/-! ### Invariants -/

/-- The invariant of the state is kept by every step: the buffer stays canonical (the form is the model's choice, log 14),
the outputs that stand are those of the call on the current inputs (70_reset_and_hazards.md R171; how State holds them is
log 11's), and whatever is returned satisfies the invariants of an operand and of a record (10_state.md R16, R19, R20;
the decode function takes logs 1 to 8 and 21). -/
def Obligations.StepKeepsTheInvariant : Prop :=
  ∀ s t : State, StateInv s → step s = .next t → StateInv t

/-- The state after reset meets the invariant. The inputs it holds, an empty buffer, byte count 0 and address 0, are the
model's choice (log 12), and so is the canonical form of the buffer (log 14); that no output stands is the spec's
(70_reset_and_hazards.md R171). -/
def Obligations.ResetMeetsTheInvariant : Prop :=
  StateInv State.reset

/-- What the caller does between calls: presenting inputs gives a state that meets the invariant from any state, and
placing a table word keeps it (60_exceptions.md R160, 70_reset_and_hazards.md R171; the two operations are log 13's, the
canonical form log 14's). -/
def Obligations.CallerKeepsTheInvariant : Prop :=
  (∀ (s : State) (bytes : List Byte) (address : Int), StateInv (s.present bytes address)) ∧
  (∀ (s : State) (nbits w : Nat), StateInv s → StateInv (s.withFetchWord nbits w))

/-- Every record a step returns meets the record invariants of 10_state.md R16, its operands those of R19 and R20 (the
destination column is log 4's, absent values log 6's, the branch width log 7's, the class of `br` and `dint` log 8's, the
default of `emulated` log 21's). -/
def Obligations.ReturnedRecordsAreWellFormed : Prop :=
  ∀ (s : State) (r : Record), Answers s (.record r) → r.wf = true

/-- After reset no call's IR and no result stand (70_reset_and_hazards.md R171); the empty buffer and the address 0
are the model's choice (log 12). -/
def Obligations.ResetHoldsNoCall : Prop :=
  State.reset.ir = none ∧ State.reset.result = none ∧ State.reset.status = none ∧
    State.reset.mem = [] ∧ State.reset.n = 0 ∧ State.reset.address = 0

/-! ### Instructions: results and completion -/

/-- The ten two-operand mnemonics the Normalizer never rewrites complete with the record of the template of
41_two_operand.md R100, on every width, register and raw mode (operand modes under decision D5, log 4; absent values
decision D6, log 6). -/
def Obligations.TwoOperandRecords : Prop :=
  ∀ row ∈ [(Instr.add, Mnemonic.add), (Instr.addc, .addc), (Instr.subc, .subc), (Instr.sub, .sub), (Instr.cmp, .cmp),
      (Instr.dadd, .dadd), (Instr.bit, .bit), (Instr.bic, .bic), (Instr.xor, .xor), (Instr.and, .and)],
    ∀ (w : Width) (src : SrcField) (dst : DstField) (s : State), src.ok = true → dst.ok = true →
      exec (row.1 w src dst) s = .next { s with result := some (.record (tabulatedTwo s.address row.2 false w src dst)) }

/-- `mov` completes with the template's record, named `br` and marked emulated when its destination register is `pc`
(41_two_operand.md R101, 44_emulated.md R141; logs 4, 6, 8). -/
def Obligations.MovRecords : Prop :=
  ∀ (w : Width) (src : SrcField) (dst : DstField) (s : State), src.ok = true → dst.ok = true →
    exec (.mov w src dst) s =
      .next { s with
        result := some (.record
          (if dst.reg = .pc then tabulatedTwo s.address .br true w src dst
          else tabulatedTwo s.address .mov false w src dst)) }

/-- `bis` completes with the template's record, or with the bare `dint` record of the same length when its destination
register is `sr` and its source's extension word is 0x00f0 (41_two_operand.md R110, 44_emulated.md R142; the literal is
log 5's, the class log 8's). -/
def Obligations.BisRecords : Prop :=
  ∀ (w : Width) (src : SrcField) (dst : DstField) (s : State), src.ok = true → dst.ok = true →
    exec (.bis w src dst) s =
      .next { s with
        result := some (.record
          (if dst.reg = .sr ∧ src.ext = some 0x00F0#16 then
            bareRecord s.address .dint (tabulatedTwo s.address .bis false w src dst).length
          else tabulatedTwo s.address .bis false w src dst)) }

/-- The seven one-operand mnemonics complete with the record of the template of 42_one_operand.md R120, whatever the two
bits no rule examines (absent values: log 6; unexamined bits: log 18). -/
def Obligations.OneOperandRecords : Prop :=
  ∀ row ∈ [(Instr.rrc, Mnemonic.rrc), (Instr.swpb, .swpb), (Instr.rra, .rra), (Instr.sxt, .sxt), (Instr.push, .push),
      (Instr.call, .call), (Instr.reti, .reti)],
    ∀ (u : BitVec 2) (w : Width) (src : SrcField) (s : State), src.ok = true →
      exec (row.1 u w src) s = .next { s with result := some (.record (tabulatedOne s.address row.2 w src)) }

/-- The eight branch-only mnemonics complete with the offset as a signed number and length 2 (43_branch_only.md R130;
the width is decision D7, log 7). -/
def Obligations.BranchOnlyRecords : Prop :=
  ∀ row ∈ [(Instr.jnz, Mnemonic.jnz), (Instr.jz, .jz), (Instr.jnc, .jnc), (Instr.jc, .jc), (Instr.jn, .jn),
      (Instr.jge, .jge), (Instr.jl, .jl), (Instr.jmp, .jmp)],
    ∀ (off10 : BitVec 10) (s : State),
      exec (row.1 off10) s = .next { s with result := some (.record (tabulatedBranch s.address row.2 off10)) }

/-- `ret` completes with the bare record of length 2 at any address (44_emulated.md R140). -/
def Obligations.RetRecord : Prop :=
  ∀ s : State, exec .ret s = .next { s with result := some (.record (bareRecord s.address .ret 2)) }

/-- `br` completes with the record of the underlying `mov`, renamed and marked emulated, for every mode of the `pc`
destination (44_emulated.md R141; logs 4, 6, 8). -/
def Obligations.BrRecords : Prop :=
  ∀ (w : Width) (src : SrcField) (dmode : RawDstMode) (dext : Option Word) (s : State), src.ok = true →
    DstField.ok ⟨.pc, dmode, dext⟩ = true →
    exec (.br w src dmode dext) s =
      .next { s with result := some (.record (tabulatedTwo s.address .br true w src ⟨.pc, dmode, dext⟩)) }

/-- `dint` completes with a record without operands that keeps the length of the underlying `bis`: 4 when the destination
is register-direct, 6 when it is absolute (44_emulated.md R142; logs 5, 8). -/
def Obligations.DintRecords : Prop :=
  ∀ (w : Width) (sreg : Reg) (smode : RawSrcMode) (dmode : RawDstMode) (dext : Option Word) (s : State),
    Instr.operandsOk (.dint w sreg smode dmode dext) = true →
    exec (.dint w sreg smode dmode dext) s =
      .next { s with
        result := some (.record (bareRecord s.address .dint (if dmode = .registerDirect then 4 else 6))) }

/-- The two invalid rows take `InvalidOpcode`, whatever their other bits (30_encoding.md R57, R59; 60_exceptions.md R154). -/
def Obligations.InvalidRowsTakeInvalidOpcode : Prop :=
  (∀ (low : BitVec 12) (s : State),
    exec (.invalidOpcode0 low) s = .next { s with result := some (.failure .invalidOpcode) }) ∧
  (∀ (u : BitVec 2) (low : BitVec 7) (s : State),
    exec (.invalidOpcode1Selector7 u low) s = .next { s with result := some (.failure .invalidOpcode) })

/-- An instruction that takes an extension word and has none ends in `TruncatedInput`, with no partial record, for every
row that can (40_decode_pipeline.md R88; how a missing word is written down is log 16's). -/
def Obligations.MissingExtensionWordIsTruncated : Prop :=
  (∀ row ∈ [Instr.mov, .add, .addc, .subc, .sub, .cmp, .dadd, .bit, .bic, .bis, .xor, .and],
    ∀ (w : Width) (src : SrcField) (dst : DstField) (s : State),
      (extraOf (reinterpretSource src.reg src.mode) = 2 ∧ src.ext = none) ∨
        (extraOf (reinterpretDestination dst.reg dst.mode) = 2 ∧ dst.ext = none) →
      exec (row w src dst) s = .next { s with result := some (.failure .truncatedInput) }) ∧
  (∀ row ∈ [Instr.rrc, .swpb, .rra, .sxt, .push, .call, .reti],
    ∀ (u : BitVec 2) (w : Width) (src : SrcField) (s : State),
      extraOf (reinterpretSource src.reg src.mode) = 2 → src.ext = none →
      exec (row u w src) s = .next { s with result := some (.failure .truncatedInput) }) ∧
  (∀ (w : Width) (src : SrcField) (dmode : RawDstMode) (dext : Option Word) (s : State),
    (extraOf (reinterpretSource src.reg src.mode) = 2 ∧ src.ext = none) ∨ (dmode = .indexed ∧ dext = none) →
    exec (.br w src dmode dext) s = .next { s with result := some (.failure .truncatedInput) }) ∧
  (∀ (w : Width) (sreg : Reg) (smode : RawSrcMode) (s : State),
    exec (.dint w sreg smode .indexed none) s = .next { s with result := some (.failure .truncatedInput) })

/-- The frame of every instruction: only the result may change. Every byte of the buffer reads as before, and the byte
count, the address and IR are as before (20_memory.md R35, 60_exceptions.md R154). -/
def Obligations.InstructionsChangeOnlyTheResult : Prop :=
  ∀ (i : Instr) (s t : State), exec i s = .next t →
    (∀ a, t.mem.read a = s.mem.read a) ∧ t.mem = s.mem ∧ t.n = s.n ∧ t.address = s.address ∧ t.ir = s.ir

/-! ### When a call fails, and lengths -/

/-- `TruncatedInput` exactly when fewer than two bytes are there, or fewer than the length of the word
(60_exceptions.md R151, R153; the length by the table of 30_encoding.md R64, which rests on log 4). -/
def Obligations.TruncatedInputExactlyWhen : Prop :=
  ∀ s : State, Answers s (.failure .truncatedInput) ↔
    s.n < 2 ∨ ∃ len, lengthTable s.mem.instructionWord = some len ∧ s.n < len

/-- `InvalidOpcode` exactly on two bytes or more whose word has opcode nibble 0, or opcode nibble 1 with selector 7
(60_exceptions.md R152, R153). -/
def Obligations.InvalidOpcodeExactlyWhen : Prop :=
  ∀ s : State, Answers s (.failure .invalidOpcode) ↔
    2 ≤ s.n ∧ (slice s.mem.instructionWord 12 4 = 0#4 ∨
      (slice s.mem.instructionWord 12 4 = 1#4 ∧ slice s.mem.instructionWord 7 3 = 7#3))

/-- A word with a length, and that many bytes, gives a record of that length (30_encoding.md R64). -/
def Obligations.WholeInstructionsGiveRecords : Prop :=
  ∀ (s : State) (len : Nat), lengthTable s.mem.instructionWord = some len → len ≤ s.n →
    ∃ r, Answers s (.record r) ∧ r.length = len ∧ r.address = s.address

/-- Every returned length is 2, 4 or 6, is 2 plus the extra bytes of the operands (those returned; for `dint`, which drops
them, those its word's fields resolve to), fits the buffer, and is the same for equal words (40_decode_pipeline.md R87). -/
def Obligations.LengthIsTwoPlusExtraBytes : Prop :=
  ∀ (s : State) (r : Record), Answers s (.record r) →
    (r.length = 2 ∨ r.length = 4 ∨ r.length = 6) ∧ r.length ≤ s.n ∧
    (r.mnemonic ≠ .dint → r.length = 2 + extraBytes r.src + extraBytes r.dst) ∧
    (r.mnemonic = .dint → r.length = 2 + (sourceOfWord .twoOperand s.mem.instructionWord).extra +
      (destinationOfWord s.mem.instructionWord).extra) ∧
    ∀ (t : State) (q : Record), t.mem.instructionWord = s.mem.instructionWord → Answers t (.record q) →
      q.length = r.length

/-- Fewer than two bytes give `TruncatedInput`, whatever they are (40_decode_pipeline.md R71; that this test comes first
is decision D13, log 21). -/
def Obligations.FewerThanTwoBytesIsTruncated : Prop :=
  ∀ s : State, s.n < 2 → step s = .next { s with ir := none, result := some (.failure .truncatedInput) }

/-- A word below 0x1000 gives `InvalidOpcode`, whatever its other bits and whatever follows (30_encoding.md R57). -/
def Obligations.OpcodeNibbleZeroIsInvalid : Prop :=
  ∀ s : State, 2 ≤ s.n → s.mem.instructionWord.toNat < 0x1000 → Answers s (.failure .invalidOpcode)

/-- Selector 7 of opcode 1 is the only unmapped slot: it gives `InvalidOpcode`, and no other word of opcodes 1, 2 and 3
does (30_encoding.md R59). -/
def Obligations.OnlySelectorSevenIsUnmapped : Prop :=
  ∀ s : State, 2 ≤ s.n →
    (s.mem.instructionWord &&& 0xF380#16 = 0x1380#16 → Answers s (.failure .invalidOpcode)) ∧
    (slice s.mem.instructionWord 12 4 = 1#4 → s.mem.instructionWord &&& 0xF380#16 ≠ 0x1380#16 →
      ¬Answers s (.failure .invalidOpcode)) ∧
    (slice s.mem.instructionWord 12 4 = 2#4 ∨ slice s.mem.instructionWord 12 4 = 3#4 →
      ¬Answers s (.failure .invalidOpcode))

/-! ### Operands of returned records -/

/-- The width of both operands is bit 6 of the word, for the two-operand and one-operand classes (30_encoding.md R56). -/
def Obligations.WidthIsBitSix : Prop :=
  ∀ (s : State) (r : Record) (o : Operand), Answers s (.record r) → r.cls = .twoOperand ∨ r.cls = .oneOperand →
    r.src = some o ∨ r.dst = some o →
    o.width = if s.mem.instructionWord.getLsbD 6 then .byte else .word

/-- An operand that takes an extension word has it as its value, whole and unsigned: the source's at offset 2, the
destination's after it, or at offset 2 when the source takes none (40_decode_pipeline.md R89, 30_encoding.md R62). -/
def Obligations.ExtensionWordsAreReadInOrder : Prop :=
  ∀ (s : State) (r : Record), Answers s (.record r) →
    (∀ o, r.src = some o →
      o.mode = .indexed ∨ o.mode = .symbolic ∨ o.mode = .absolute ∨ o.mode = .immediate →
      o.value = some ((s.mem.read 2).toNat + 256 * (s.mem.read 3).toNat : Int)) ∧
    (∀ o, r.dst = some o →
      o.mode = .indexed ∨ o.mode = .symbolic ∨ o.mode = .absolute ∨ o.mode = .immediate →
      o.value =
        if extraBytes r.src = 2 then some ((s.mem.read 4).toNat + 256 * (s.mem.read 5).toNat : Int)
        else some ((s.mem.read 2).toNat + 256 * (s.mem.read 3).toNat : Int))

/-- A constant operand carries its literal and takes no extension word, at either width (30_encoding.md R63). -/
def Obligations.ConstantOperandsCarryTheirLiteral : Prop :=
  ∀ (s : State) (r : Record) (o : Operand), Answers s (.record r) → r.src = some o ∨ r.dst = some o →
    (o.mode = .constant0 → o.value = some 0 ∧ o.extra = 0) ∧ (o.mode = .constant1 → o.value = some 1 ∧ o.extra = 0) ∧
    (o.mode = .constant2 → o.value = some 2 ∧ o.extra = 0) ∧
    (o.mode = .constantNeg1 → o.value = some (-1) ∧ o.extra = 0) ∧
    (o.mode = .constant4 → o.value = some 4 ∧ o.extra = 0) ∧ (o.mode = .constant8 → o.value = some 8 ∧ o.extra = 0)

/-- The nine rows of the reinterpretation table, and every other pair literal, for a source operand
(40_decode_pipeline.md R81, R83). -/
def Obligations.SourceReinterpretation : Prop :=
  reinterpretSource .pc .indexed = .symbolic ∧ reinterpretSource .pc .indirectAutoincrement = .immediate ∧
  reinterpretSource .cg .registerDirect = .constant0 ∧ reinterpretSource .cg .indexed = .constant1 ∧
  reinterpretSource .cg .indirectRegister = .constant2 ∧ reinterpretSource .cg .indirectAutoincrement = .constantNeg1 ∧
  reinterpretSource .sr .indexed = .absolute ∧ reinterpretSource .sr .indirectRegister = .constant4 ∧
  reinterpretSource .sr .indirectAutoincrement = .constant8 ∧
  ∀ (reg : Reg) (raw : RawSrcMode),
    (reg, raw) ∉ [(Reg.pc, RawSrcMode.indexed), (.pc, .indirectAutoincrement), (.cg, .registerDirect), (.cg, .indexed),
      (.cg, .indirectRegister), (.cg, .indirectAutoincrement), (.sr, .indexed), (.sr, .indirectRegister),
      (.sr, .indirectAutoincrement)] →
    reinterpretSource reg raw = literalSource raw

/-- A destination is reinterpreted only for `sr` with raw mode indexed, and the reading not followed would differ on
exactly three pairs (40_decode_pipeline.md R82, decision D5, log 4). -/
def Obligations.DestinationReinterpretation : Prop :=
  (∀ reg : Reg, reinterpretDestination reg .registerDirect = .registerDirect ∧
    reinterpretDestination reg .indexed = if reg = .sr then .absolute else .indexed) ∧
  ∀ (reg : Reg) (raw : RawDstMode),
    reinterpretDestinationUnder .fullTable reg raw ≠ reinterpretDestination reg raw ↔
      (reg, raw) ∈ [(Reg.pc, RawDstMode.indexed), (.cg, .registerDirect), (.cg, .indexed)]

/-- `indexed, symbolic, absolute, immediate` take two extra bytes and every other mode none (40_decode_pipeline.md R85). -/
def Obligations.FourModesTakeAnExtensionWord : Prop :=
  ∀ m : AddrMode, extraOf m =
    if m = .indexed ∨ m = .symbolic ∨ m = .absolute ∨ m = .immediate then 2 else 0

/-- The value of a branch-only record is the low ten bits of the word as a signed two's-complement number, unscaled,
-512..511; three values of the ten bits written out (30_encoding.md R61). -/
def Obligations.BranchOffsetIsSignExtended : Prop :=
  (∀ (s : State) (r : Record), Answers s (.record r) → r.cls = .branchOnly →
    ∃ v : Int, r.src.bind Operand.value = some v ∧ -512 ≤ v ∧ v ≤ 511 ∧
      v = if s.mem.instructionWord.getLsbD 9 then ((s.mem.instructionWord.toNat % 1024 : Nat) : Int) - 1024
        else ((s.mem.instructionWord.toNat % 1024 : Nat) : Int)) ∧
  sext10 0x200#10 = -512 ∧ sext10 0x001#10 = 1 ∧ sext10 0x3FF#10 = -1

/-- The Normalizer leaves every record that neither rewrite matches as it came, and never changes the address or the
length (40_decode_pipeline.md R92). -/
def Obligations.NoOtherRewrites : Prop :=
  ∀ r : Record,
    (¬(r.mnemonic = .mov ∧ r.dst.bind Operand.reg = some .pc) →
      ¬(r.mnemonic = .bis ∧ r.dst.bind Operand.reg = some .sr ∧ r.src.bind Operand.value = some 0xF0) →
      normalizeRecord r = r) ∧
    (normalizeRecord r).address = r.address ∧ (normalizeRecord r).length = r.length

/-! ### The emulated mnemonics, from bytes -/

/-- Two bytes that hold the return word are `ret`, whatever the address and whatever follows (44_emulated.md R140; the
value 0x4130 is log 1's). -/
def Obligations.ReturnWordIsRet : Prop :=
  ∀ s : State, 2 ≤ s.n → s.mem.instructionWord = 0x4130#16 → Answers s (.record (bareRecord s.address .ret 2))

/-- A `mov` word into `pc`, other than the return word, with all its bytes, is `br`: class two-operand, destination
register `pc`, emulated, and the length of the word (44_emulated.md R141; logs 1, 4, 8). -/
def Obligations.MovIntoPcIsBr : Prop :=
  ∀ (s : State) (len : Nat), s.mem.instructionWord &&& 0xF00F#16 = 0x4000#16 → s.mem.instructionWord ≠ 0x4130#16 →
    lengthTable s.mem.instructionWord = some len → len ≤ s.n →
    ∃ r, Answers s (.record r) ∧ r.mnemonic = .br ∧ r.emulated = true ∧ r.cls = .twoOperand ∧ r.length = len ∧
      r.dst.bind Operand.reg = some .pc

/-- A `bis` word into `sr` with an extension-word source is `dint` exactly when that word is 0x00f0, for any source mode,
destination mode and width, and keeps its length; otherwise it stays `bis` (44_emulated.md R142; logs 4, 5, 8). -/
def Obligations.BisOfF0ToSrIsDint : Prop :=
  ∀ (s : State) (len : Nat), s.mem.instructionWord &&& 0xF00F#16 = 0xD002#16 →
    lengthTable s.mem.instructionWord = some len → len ≤ s.n →
    ((lengthTableSource (slice s.mem.instructionWord 4 2) (slice s.mem.instructionWord 8 4) = 2 ∧
        s.mem.read2 2 = 0x00F0#16) → Answers s (.record (bareRecord s.address .dint len))) ∧
    (¬(lengthTableSource (slice s.mem.instructionWord 4 2) (slice s.mem.instructionWord 8 4) = 2 ∧
        s.mem.read2 2 = 0x00F0#16) →
      ∃ r, Answers s (.record r) ∧ r.mnemonic = .bis ∧ r.emulated = false ∧ r.length = len)

/-- The emulated flag is true exactly for `ret`, `br` and `dint` (40_decode_pipeline.md R93; the default is decision D23,
log 21). -/
def Obligations.ExactlyThreeMnemonicsAreEmulated : Prop :=
  ∀ (s : State) (r : Record), Answers s (.record r) →
    (r.emulated = true ↔ r.mnemonic = .ret ∨ r.mnemonic = .br ∨ r.mnemonic = .dint)

/-! ### Purity -/

/-- The block writes no memory, and a second call on the same inputs answers the same state (20_memory.md R35). -/
def Obligations.BufferIsNeverWritten : Prop :=
  ∀ s t : State, step s = .next t →
    (∀ a, t.mem.read a = s.mem.read a) ∧ t.mem = s.mem ∧ t.n = s.n ∧ t.address = s.address ∧ step t = .next t

/-- Nothing of an earlier call has any effect: states with the same inputs step to the same state (10_state.md R24;
60_exceptions.md R155). -/
def Obligations.EarlierCallsHaveNoEffect : Prop :=
  ∀ s t : State, t.mem = s.mem → t.n = s.n → t.address = s.address → step t = step s

/-- The outcome depends on the address only through the record's address field: at any two addresses, odd ones and
negative ones included, it is the same failure or records equal in every other field (40_decode_pipeline.md R97,
20_memory.md R37; the domain of the address is decision D10, log 9). -/
def Obligations.AddressIsOnlyCopied : Prop :=
  ∀ (s : State) (a : Int),
    (∀ r, Answers s (.record r) → Answers { s with address := a } (.record { r with address := a })) ∧
    (∀ f, Answers s (.failure f) → Answers { s with address := a } (.failure f))

/-- Bytes from index `length` on are never read: any buffer that begins with the same `length` bytes gives the same record,
and a buffer of two bytes or more that holds fewer of them is truncated (20_memory.md R34, R36). -/
def Obligations.SurplusBytesAreNeverRead : Prop :=
  ∀ (s t : State) (r : Record), Answers s (.record r) → t.address = s.address →
    (r.length ≤ t.n → (∀ a, a < r.length → t.mem.read a = s.mem.read a) → Answers t (.record r)) ∧
    (2 ≤ t.n → t.n < r.length → (∀ a, a < t.n → t.mem.read a = s.mem.read a) →
      Answers t (.failure .truncatedInput))

/-- The byte count may be saturated at six without changing the outcome (10_state.md R11, log 15). -/
def Obligations.ByteCountMayBeSaturated : Prop :=
  ∀ (s : State) (c : CallResult), Answers s c ↔ Answers { s with n := min s.n 6 } c

/-- The bits 11:10 of an opcode-1 word change nothing (30_encoding.md R58; decision D15, log 18). -/
def Obligations.UnexaminedBitsChangeNothing : Prop :=
  ∀ (s t : State) (c : CallResult), t.n = s.n → t.address = s.address → 2 ≤ s.n →
    slice s.mem.instructionWord 12 4 = 1#4 → slice t.mem.instructionWord 12 4 = 1#4 →
    slice t.mem.instructionWord 0 10 = slice s.mem.instructionWord 0 10 →
    (∀ a, 2 ≤ a → t.mem.read a = s.mem.read a) → Answers s c → Answers t c

/-! ### The caller -/

/-- What the caller presents is what the block sees: byte `i` of the buffer is byte `i` presented, and the rest of the
inputs likewise (20_memory.md R30, R31; log 13). -/
def Obligations.PresentedInputsAreSeen : Prop :=
  ∀ (s : State) (bytes : List Byte) (address : Int),
    (s.present bytes address).n = bytes.length ∧ (s.present bytes address).address = address ∧
    (∀ (k : Nat) (h : k < bytes.length), (s.present bytes address).mem.read k = bytes[k]) ∧
    (s.present bytes address).window = bytes.take 6

/-- A table word put where the block fetches is the very next instruction run (log 13). -/
def Obligations.FetchWordRunsNext : Prop :=
  ∀ (s : State) (nbits w : Nat) (i : Instr), s.mem.wf = true → decodeTableWord nbits w = some i →
    step (s.withFetchWord nbits w) = exec i (s.withFetchWord nbits w).latchIr

/-- The status output is 0 after a record, 1 after `TruncatedInput` and 2 after `InvalidOpcode` (60_exceptions.md R150;
the numbers are decision D12, log 22). -/
def Obligations.StatusOutputNumbersTheOutcome : Prop :=
  ∀ s t : State, step s = .next t →
    (t.status = some 0 ↔ ∃ r, t.result = some (.record r)) ∧
    (t.status = some 1 ↔ t.result = some (.failure .truncatedInput)) ∧
    (t.status = some 2 ↔ t.result = some (.failure .invalidOpcode))

/-- When the inputs change, no output of a call on the earlier ones stands: IR is not readable, and there is no result and
no status until a call is evaluated; the step then gives those of the new inputs (70_reset_and_hazards.md R171; the caller's
operations are log 13's, how State holds outputs is log 11's; the decode function takes logs 1 to 8). -/
def Obligations.NewInputsHoldNoOutput : Prop :=
  (∀ (s : State) (bytes : List Byte) (address : Int),
    HoldsNoCall (s.present bytes address) ∧ (s.present bytes address).status = none) ∧
  (∀ (s : State) (nbits w : Nat), HoldsNoCall (s.withFetchWord nbits w) ∧ (s.withFetchWord nbits w).status = none) ∧
  (∀ s t : State, step s = .next t → HoldsCurrentCall t)
end

