-- ==== Sys2Proof/Laws/Fields.lean ====
section
/-! SUPPORT. The bit fields of the three formats and the field tables: every field is read back as it was written, and a
word is the concatenation of its fields (30_encoding.md R46 to R48). -/

namespace Sys2Proof

open Sys2Proof.Machine

@[simp] theorem regOfIndex_regIndex (r : Reg) : regOfIndex (regIndex r) = r := by cases r <;> rfl

@[simp] theorem regIndex_regOfIndex : ∀ k : BitVec 4, regIndex (regOfIndex k) = k := by decide

@[simp] theorem rawSrcModeOfBits_bits (m : RawSrcMode) : rawSrcModeOfBits (rawSrcModeBits m) = m := by cases m <;> rfl

@[simp] theorem rawSrcModeBits_ofBits : ∀ b : BitVec 2, rawSrcModeBits (rawSrcModeOfBits b) = b := by decide

@[simp] theorem rawDstModeOfBit_bit (m : RawDstMode) : rawDstModeOfBit (rawDstModeBit m) = m := by cases m <;> rfl

@[simp] theorem rawDstModeBit_ofBit : ∀ b : BitVec 1, rawDstModeBit (rawDstModeOfBit b) = b := by decide

@[simp] theorem widthOfBit_bit (w : Width) : widthOfBit (widthBit w) = w := by cases w <;> rfl

@[simp] theorem widthBit_ofBit : ∀ b : BitVec 1, widthBit (widthOfBit b) = b := by decide

/-! ### Two-operand words -/

section Two

variable (op : BitVec 4) (w : Width) (src : SrcField) (dst : DstField)

@[simp] theorem slice_opcode_encodeTwo : slice (encodeTwo op w src dst) 12 4 = op := by
  unfold slice encodeTwo; ext i hi
  simp only [BitVec.getElem_extractLsb', BitVec.getLsbD_append]
  interval_cases i <;> simp

@[simp] theorem slice_sreg_encodeTwo : slice (encodeTwo op w src dst) 8 4 = regIndex src.reg := by
  unfold slice encodeTwo; ext i hi
  simp only [BitVec.getElem_extractLsb', BitVec.getLsbD_append]
  interval_cases i <;> simp

@[simp] theorem slice_dmode_encodeTwo : slice (encodeTwo op w src dst) 7 1 = rawDstModeBit dst.mode := by
  unfold slice encodeTwo; ext i hi
  simp only [BitVec.getElem_extractLsb', BitVec.getLsbD_append]
  interval_cases i; simp

@[simp] theorem slice_bw_encodeTwo : slice (encodeTwo op w src dst) 6 1 = widthBit w := by
  unfold slice encodeTwo; ext i hi
  simp only [BitVec.getElem_extractLsb', BitVec.getLsbD_append]
  interval_cases i; simp

@[simp] theorem slice_smode_encodeTwo : slice (encodeTwo op w src dst) 4 2 = rawSrcModeBits src.mode := by
  unfold slice encodeTwo; ext i hi
  simp only [BitVec.getElem_extractLsb', BitVec.getLsbD_append]
  interval_cases i <;> simp

@[simp] theorem slice_dreg_encodeTwo : slice (encodeTwo op w src dst) 0 4 = regIndex dst.reg := by
  unfold slice encodeTwo; ext i hi
  simp only [BitVec.getElem_extractLsb', BitVec.getLsbD_append]
  interval_cases i <;> simp

end Two

/-- A word is its two-operand fields. -/
theorem word_eq_two_fields (ir : Word) :
    (slice ir 12 4 ++ slice ir 8 4 ++ slice ir 7 1 ++ slice ir 6 1 ++ slice ir 4 2 ++ slice ir 0 4 : Word) = ir := by
  unfold slice; apply BitVec.eq_of_getLsbD_eq; intro i hi
  simp only [BitVec.getLsbD_append, BitVec.getLsbD_extractLsb']
  interval_cases i <;> simp

/-! ### One-operand words -/

section One

variable (sel : BitVec 3) (u : BitVec 2) (w : Width) (src : SrcField)

@[simp] theorem slice_opcode_encodeOne : slice (encodeOne sel u w src) 12 4 = 1#4 := by
  unfold slice encodeOne; ext i hi
  simp only [BitVec.getElem_extractLsb', BitVec.getLsbD_append]
  interval_cases i <;> simp

@[simp] theorem slice_unexamined_encodeOne : slice (encodeOne sel u w src) 10 2 = u := by
  unfold slice encodeOne; ext i hi
  simp only [BitVec.getElem_extractLsb', BitVec.getLsbD_append]
  interval_cases i <;> simp

@[simp] theorem slice_sel_encodeOne : slice (encodeOne sel u w src) 7 3 = sel := by
  unfold slice encodeOne; ext i hi
  simp only [BitVec.getElem_extractLsb', BitVec.getLsbD_append]
  interval_cases i <;> simp

@[simp] theorem slice_bw_encodeOne : slice (encodeOne sel u w src) 6 1 = widthBit w := by
  unfold slice encodeOne; ext i hi
  simp only [BitVec.getElem_extractLsb', BitVec.getLsbD_append]
  interval_cases i; simp

@[simp] theorem slice_smode_encodeOne : slice (encodeOne sel u w src) 4 2 = rawSrcModeBits src.mode := by
  unfold slice encodeOne; ext i hi
  simp only [BitVec.getElem_extractLsb', BitVec.getLsbD_append]
  interval_cases i <;> simp

@[simp] theorem slice_sreg_encodeOne : slice (encodeOne sel u w src) 0 4 = regIndex src.reg := by
  unfold slice encodeOne; ext i hi
  simp only [BitVec.getElem_extractLsb', BitVec.getLsbD_append]
  interval_cases i <;> simp

end One

/-- A word is its one-operand fields. -/
theorem word_eq_one_fields (ir : Word) :
    (slice ir 12 4 ++ slice ir 10 2 ++ slice ir 7 3 ++ slice ir 6 1 ++ slice ir 4 2 ++ slice ir 0 4 : Word) = ir := by
  unfold slice; apply BitVec.eq_of_getLsbD_eq; intro i hi
  simp only [BitVec.getLsbD_append, BitVec.getLsbD_extractLsb']
  interval_cases i <;> simp

/-! ### Branch-only words -/

section Branch

variable (op : BitVec 4) (sel : BitVec 2) (off : BitVec 10)

@[simp] theorem slice_opcode_encodeBranch : slice (encodeBranch op sel off) 12 4 = op := by
  unfold slice encodeBranch; ext i hi
  simp only [BitVec.getElem_extractLsb', BitVec.getLsbD_append]
  interval_cases i <;> simp

@[simp] theorem slice_sel_encodeBranch : slice (encodeBranch op sel off) 10 2 = sel := by
  unfold slice encodeBranch; ext i hi
  simp only [BitVec.getElem_extractLsb', BitVec.getLsbD_append]
  interval_cases i <;> simp

@[simp] theorem slice_off10_encodeBranch : slice (encodeBranch op sel off) 0 10 = off := by
  unfold slice encodeBranch; ext i hi
  simp only [BitVec.getElem_extractLsb', BitVec.getLsbD_append]
  interval_cases i <;> simp

end Branch

/-- A word is its branch-only fields. -/
theorem word_eq_branch_fields (ir : Word) : (slice ir 12 4 ++ slice ir 10 2 ++ slice ir 0 10 : Word) = ir := by
  unfold slice; apply BitVec.eq_of_getLsbD_eq; intro i hi
  simp only [BitVec.getLsbD_append, BitVec.getLsbD_extractLsb']
  interval_cases i <;> simp

/-! ### Invalid words -/

/-- A word is its opcode nibble and the twelve bits below it. -/
theorem word_eq_low_fields (ir : Word) : (slice ir 12 4 ++ slice ir 0 12 : Word) = ir := by
  unfold slice; apply BitVec.eq_of_getLsbD_eq; intro i hi
  simp only [BitVec.getLsbD_append, BitVec.getLsbD_extractLsb']
  interval_cases i <;> simp

/-- A word is its opcode nibble, the bits 11:10, the selector and the seven bits below it. -/
theorem word_eq_selector_fields (ir : Word) :
    (slice ir 12 4 ++ slice ir 10 2 ++ slice ir 7 3 ++ slice ir 0 7 : Word) = ir := by
  unfold slice; apply BitVec.eq_of_getLsbD_eq; intro i hi
  simp only [BitVec.getLsbD_append, BitVec.getLsbD_extractLsb']
  interval_cases i <;> simp

@[simp] theorem slice_opcode_low (low : BitVec 12) : slice (0#4 ++ low : Word) 12 4 = 0#4 := by
  unfold slice; ext i hi
  simp only [BitVec.getElem_extractLsb', BitVec.getLsbD_append]
  interval_cases i <;> simp

@[simp] theorem slice_low_low (low : BitVec 12) : slice (0#4 ++ low : Word) 0 12 = low := by
  unfold slice; ext i hi
  simp only [BitVec.getElem_extractLsb', BitVec.getLsbD_append]
  interval_cases i <;> simp

section Selector7

variable (u : BitVec 2) (low : BitVec 7)

@[simp] theorem slice_opcode_selector7 : slice (1#4 ++ u ++ 7#3 ++ low : Word) 12 4 = 1#4 := by
  unfold slice; ext i hi
  simp only [BitVec.getElem_extractLsb', BitVec.getLsbD_append]
  interval_cases i <;> simp

@[simp] theorem slice_unexamined_selector7 : slice (1#4 ++ u ++ 7#3 ++ low : Word) 10 2 = u := by
  unfold slice; ext i hi
  simp only [BitVec.getElem_extractLsb', BitVec.getLsbD_append]
  interval_cases i <;> simp

@[simp] theorem slice_sel_selector7 : slice (1#4 ++ u ++ 7#3 ++ low : Word) 7 3 = 7#3 := by
  unfold slice; ext i hi
  simp only [BitVec.getElem_extractLsb', BitVec.getLsbD_append]
  interval_cases i <;> simp

@[simp] theorem slice_low_selector7 : slice (1#4 ++ u ++ 7#3 ++ low : Word) 0 7 = low := by
  unfold slice; ext i hi
  simp only [BitVec.getElem_extractLsb', BitVec.getLsbD_append]
  interval_cases i <;> simp

end Selector7

/-! ### Bytes of words -/

/-- A word is its two bytes. -/
theorem littleWord_littleBytes (w : Word) : littleWord (w.extractLsb' 0 8) (w.extractLsb' 8 8) = w := by
  unfold littleWord; apply BitVec.eq_of_getLsbD_eq; intro i hi
  simp only [BitVec.getLsbD_append, BitVec.getLsbD_extractLsb']
  interval_cases i <;> simp

/-- The bytes of the word of two bytes are the two bytes. -/
theorem littleBytes_littleWord (b0 b1 : Byte) : littleBytes (littleWord b0 b1) = [b0, b1] := by
  have h0 : (b1 ++ b0 : Word).extractLsb' 0 8 = b0 := by
    ext i hi
    simp only [BitVec.getElem_extractLsb', BitVec.getLsbD_append]
    interval_cases i <;> simp
  have h1 : (b1 ++ b0 : Word).extractLsb' 8 8 = b1 := by
    ext i hi
    simp only [BitVec.getElem_extractLsb', BitVec.getLsbD_append]
    interval_cases i <;> simp
  simp only [littleBytes, littleWord, h0, h1]

/-- An instruction word is read back from its two bytes. -/
theorem instructionBytes_eq (w : Word) : ∃ b0 b1, instructionBytes w = [b0, b1] ∧ instructionWord b0 b1 = w :=
  ⟨w.extractLsb' 0 8, w.extractLsb' 8 8, rfl, littleWord_littleBytes w⟩

/-- The bytes of the instruction word of two bytes are the two bytes. -/
theorem instructionBytes_instructionWord (b0 b1 : Byte) : instructionBytes (instructionWord b0 b1) = [b0, b1] :=
  littleBytes_littleWord b0 b1

end Sys2Proof
end

