-- ==== Sys2Proof/Laws/Decode.lean ====
section
/-! SUPPORT. One spec lemma per part of the decoder: exactly when it takes an operand or a format, and what it took. -/

namespace Sys2Proof

open Sys2Proof.Machine

/-- The bytes of an operand's extension word. -/
def extBytes (x : Option Word) : List Byte :=
  x.toList.flatMap littleBytes

@[simp] theorem extBytes_none : extBytes none = [] := rfl

@[simp] theorem extBytes_some (w : Word) : extBytes (some w) = littleBytes w := by simp [extBytes]

theorem takeExtension_ok (extra : Nat) (bytes rest : List Byte) (x : Option Word) :
    takeExtension extra bytes = .ok (x, rest) ↔ x.isSome = decide (extra = 2) ∧ bytes = extBytes x ++ rest := by
  unfold takeExtension
  by_cases h : extra = 2
  · simp only [h, if_true, decide_true]
    constructor
    · intro hx
      match bytes, hx with
      | b0 :: b1 :: r, hx =>
        simp only [Except.ok.injEq, Prod.mk.injEq] at hx
        obtain ⟨rfl, rfl⟩ := hx
        exact ⟨rfl, by rw [extBytes_some, littleBytes_littleWord]; rfl⟩
    · rintro ⟨hx, rfl⟩
      obtain ⟨w, rfl⟩ := Option.isSome_iff_exists.1 hx
      rw [extBytes_some]
      simp only [littleBytes, List.cons_append, List.nil_append, littleWord_littleBytes]
  · simp only [h, if_false, decide_false, Except.ok.injEq, Prod.mk.injEq]
    constructor
    · rintro ⟨rfl, rfl⟩
      exact ⟨rfl, rfl⟩
    · rintro ⟨hx, rfl⟩
      cases x with
      | none => exact ⟨rfl, rfl⟩
      | some w => exact absurd hx (by simp)

theorem takeSource_ok (reg : Reg) (mode : RawSrcMode) (bytes rest : List Byte) (f : SrcField) :
    takeSource reg mode bytes = .ok (f, rest) ↔
      f.reg = reg ∧ f.mode = mode ∧ f.ok = true ∧ bytes = extBytes f.ext ++ rest := by
  obtain ⟨r, m, x⟩ := f
  unfold takeSource
  cases h : takeExtension (extraOf (reinterpretSource reg mode)) bytes with
  | ok p =>
    obtain ⟨x', rest'⟩ := p
    have h' := (takeExtension_ok _ _ _ _).1 h
    simp only [Except.ok.injEq, Prod.mk.injEq, SrcField.mk.injEq]
    constructor
    · rintro ⟨⟨rfl, rfl, rfl⟩, rfl⟩
      exact ⟨rfl, rfl, by simp [SrcField.ok, h'.1], h'.2⟩
    · rintro ⟨rfl, rfl, hok, hb⟩
      have h2 := (takeExtension_ok (extraOf (reinterpretSource r m)) bytes rest x).2
        ⟨by simpa [SrcField.ok] using hok, hb⟩
      rw [h] at h2
      simp only [Except.ok.injEq, Prod.mk.injEq] at h2
      exact ⟨⟨rfl, rfl, h2.1⟩, h2.2⟩
  | error e =>
    simp only [reduceCtorEq, false_iff]
    rintro ⟨rfl, rfl, hok, hb⟩
    have h2 := (takeExtension_ok (extraOf (reinterpretSource r m)) bytes rest x).2
      ⟨by simpa [SrcField.ok] using hok, hb⟩
    rw [h] at h2
    exact absurd h2 (by simp)

theorem takeDestination_ok (reg : Reg) (mode : RawDstMode) (bytes rest : List Byte) (f : DstField) :
    takeDestination reg mode bytes = .ok (f, rest) ↔
      f.reg = reg ∧ f.mode = mode ∧ f.ok = true ∧ bytes = extBytes f.ext ++ rest := by
  obtain ⟨r, m, x⟩ := f
  unfold takeDestination
  cases h : takeExtension (extraOf (reinterpretDestination reg mode)) bytes with
  | ok p =>
    obtain ⟨x', rest'⟩ := p
    have h' := (takeExtension_ok _ _ _ _).1 h
    simp only [Except.ok.injEq, Prod.mk.injEq, DstField.mk.injEq]
    constructor
    · rintro ⟨⟨rfl, rfl, rfl⟩, rfl⟩
      exact ⟨rfl, rfl, by simp [DstField.ok, h'.1], h'.2⟩
    · rintro ⟨rfl, rfl, hok, hb⟩
      have h2 := (takeExtension_ok (extraOf (reinterpretDestination r m)) bytes rest x).2
        ⟨by simpa [DstField.ok] using hok, hb⟩
      rw [h] at h2
      simp only [Except.ok.injEq, Prod.mk.injEq] at h2
      exact ⟨⟨rfl, rfl, h2.1⟩, h2.2⟩
  | error e =>
    simp only [reduceCtorEq, false_iff]
    rintro ⟨rfl, rfl, hok, hb⟩
    have h2 := (takeExtension_ok (extraOf (reinterpretDestination r m)) bytes rest x).2
      ⟨by simpa [DstField.ok] using hok, hb⟩
    rw [h] at h2
    exact absurd h2 (by simp)

/-- Two-operand fields of a word, as an instruction holds them. -/
def HasTwoFields (ir : Word) (w : Width) (src : SrcField) (dst : DstField) : Prop :=
  src.reg = regOfIndex (slice ir 8 4) ∧ src.mode = rawSrcModeOfBits (slice ir 4 2) ∧
    dst.reg = regOfIndex (slice ir 0 4) ∧ dst.mode = rawDstModeOfBit (slice ir 7 1) ∧ w = widthOfBit (slice ir 6 1)

/-- One-operand fields of a word, as an instruction holds them. -/
def HasOneFields (ir : Word) (u : BitVec 2) (w : Width) (src : SrcField) : Prop :=
  src.reg = regOfIndex (slice ir 0 4) ∧ src.mode = rawSrcModeOfBits (slice ir 4 2) ∧ w = widthOfBit (slice ir 6 1) ∧
    u = slice ir 10 2

theorem decodeTwo_ok (ir : Word) (bytes rest : List Byte) (row : Width → SrcField → DstField → Instr) (i : Instr) :
    decodeTwo ir bytes row = .ok (i, rest) ↔
      ∃ w src dst, i = row w src dst ∧ HasTwoFields ir w src dst ∧ src.ok = true ∧ dst.ok = true ∧
        bytes = extBytes src.ext ++ (extBytes dst.ext ++ rest) := by
  unfold decodeTwo HasTwoFields
  constructor
  · intro h
    split at h
    · exact absurd h (by simp)
    · next src rest1 hs =>
      split at h
      · exact absurd h (by simp)
      · next dst rest2 hd =>
        simp only [Except.ok.injEq, Prod.mk.injEq] at h
        obtain ⟨h1, h2, h3, h4⟩ := (takeSource_ok _ _ _ _ _).1 hs
        obtain ⟨k1, k2, k3, k4⟩ := (takeDestination_ok _ _ _ _ _).1 hd
        exact ⟨_, src, dst, h.1.symm, ⟨h1, h2, k1, k2, rfl⟩, h3, k3, by rw [h4, k4, h.2]⟩
  · rintro ⟨w, src, dst, rfl, ⟨h1, h2, k1, k2, rfl⟩, hs, hd, rfl⟩
    rw [(takeSource_ok _ _ _ _ src).2 ⟨h1, h2, hs, rfl⟩]
    simp only
    rw [(takeDestination_ok _ _ _ _ dst).2 ⟨k1, k2, hd, rfl⟩]

theorem decodeOne_ok (ir : Word) (bytes rest : List Byte) (row : BitVec 2 → Width → SrcField → Instr) (i : Instr) :
    decodeOne ir bytes row = .ok (i, rest) ↔
      ∃ u w src, i = row u w src ∧ HasOneFields ir u w src ∧ src.ok = true ∧ bytes = extBytes src.ext ++ rest := by
  unfold decodeOne HasOneFields
  constructor
  · intro h
    split at h
    · exact absurd h (by simp)
    · next src rest1 hs =>
      simp only [Except.ok.injEq, Prod.mk.injEq] at h
      obtain ⟨h1, h2, h3, h4⟩ := (takeSource_ok _ _ _ _ _).1 hs
      exact ⟨_, _, src, h.1.symm, ⟨h1, h2, rfl, rfl⟩, h3, by rw [h4, h.2]⟩
  · rintro ⟨u, w, src, rfl, ⟨h1, h2, rfl, rfl⟩, hs, rfl⟩
    rw [(takeSource_ok _ _ _ _ src).2 ⟨h1, h2, hs, rfl⟩]

/-- Fields read from a word encode to the word. -/
theorem encodeTwo_of_fields (ir : Word) (op : BitVec 4) (w : Width) (src : SrcField) (dst : DstField)
    (hop : slice ir 12 4 = op) (h : HasTwoFields ir w src dst) : encodeTwo op w src dst = ir := by
  obtain ⟨h1, h2, h3, h4, h5⟩ := h
  simp only [encodeTwo, h1, h2, h3, h4, h5, regIndex_regOfIndex, rawSrcModeBits_ofBits, rawDstModeBit_ofBit,
    widthBit_ofBit, ← hop]
  exact word_eq_two_fields ir

/-- Fields read from a word encode to the word. -/
theorem encodeOne_of_fields (ir : Word) (sel : BitVec 3) (u : BitVec 2) (w : Width) (src : SrcField)
    (hop : slice ir 12 4 = 1#4) (hsel : slice ir 7 3 = sel) (h : HasOneFields ir u w src) :
    encodeOne sel u w src = ir := by
  obtain ⟨h1, h2, h3, h4⟩ := h
  simp only [encodeOne, h1, h2, h3, h4, regIndex_regOfIndex, rawSrcModeBits_ofBits, widthBit_ofBit, ← hsel, ← hop]
  exact word_eq_one_fields ir

/-- The fields of an encoded two-operand word. -/
theorem hasTwoFields_encodeTwo (op : BitVec 4) (w : Width) (src : SrcField) (dst : DstField) :
    HasTwoFields (encodeTwo op w src dst) w src dst := by
  simp [HasTwoFields]

/-- The fields of an encoded one-operand word. -/
theorem hasOneFields_encodeOne (sel : BitVec 3) (u : BitVec 2) (w : Width) (src : SrcField) :
    HasOneFields (encodeOne sel u w src) u w src := by
  simp [HasOneFields]

end Sys2Proof
end

