-- ==== Sys2Proof/Laws/Memory.lean ====
section
/-! SUPPORT. The buffer: read after write, and the canonical form every operation keeps (log 14). -/

namespace Sys2Proof.Machine

@[simp] theorem Memory.read_nil (a : Nat) : Memory.read [] a = Memory.background := rfl

@[simp] theorem Memory.wf_nil : Memory.wf [] = true := rfl

@[simp] theorem Memory.below_nil (n : Nat) : Memory.below n [] = true := rfl

theorem Memory.wfFrom_cons (lo a : Nat) (v : Byte) (m : Memory) :
    Memory.wfFrom lo ((a, v) :: m) = true ↔ lo ≤ a ∧ v ≠ Memory.background ∧ Memory.wfFrom (a + 1) m = true := by
  simp [Memory.wfFrom, and_assoc]

theorem Memory.below_cons (n a : Nat) (v : Byte) (m : Memory) :
    Memory.below n ((a, v) :: m) = true ↔ a < n ∧ Memory.below n m = true := by
  simp [Memory.below]

theorem Memory.wfFrom_mono {lo lo' : Nat} (h : lo' ≤ lo) :
    ∀ m : Memory, Memory.wfFrom lo m = true → Memory.wfFrom lo' m = true
  | [], _ => rfl
  | (a, v) :: m, hm => by
    rw [Memory.wfFrom_cons] at hm ⊢
    exact ⟨by omega, hm.2⟩

theorem Memory.below_mono {n n' : Nat} (h : n ≤ n') :
    ∀ m : Memory, Memory.below n m = true → Memory.below n' m = true
  | [], _ => rfl
  | (a, v) :: m, hm => by
    rw [Memory.below_cons] at hm ⊢
    exact ⟨by omega, Memory.below_mono h m hm.2⟩

/-- Below its first possible index, a canonical buffer reads as the background. -/
theorem Memory.read_of_lt {lo a : Nat} (h : a < lo) :
    ∀ m : Memory, Memory.wfFrom lo m = true → Memory.read m a = Memory.background
  | [], _ => rfl
  | (b, v) :: m, hm => by
    rw [Memory.wfFrom_cons] at hm
    have hb : b ≠ a := by omega
    simp only [Memory.read, if_neg hb]
    exact Memory.read_of_lt (lo := b + 1) (by omega) m hm.2.2

/-- Outside the indices it lists, a buffer reads as the background. -/
theorem Memory.read_of_below {n a : Nat} (h : n ≤ a) :
    ∀ m : Memory, Memory.below n m = true → Memory.read m a = Memory.background
  | [], _ => rfl
  | (b, v) :: m, hm => by
    rw [Memory.below_cons] at hm
    have hb : b ≠ a := by omega
    simp only [Memory.read, if_neg hb]
    exact Memory.read_of_below h m hm.2

/-- A write is seen at its own index. -/
theorem Memory.read_write_same (a : Nat) (v : Byte) :
    ∀ (lo : Nat) (m : Memory), Memory.wfFrom lo m = true → Memory.read (Memory.write m a v) a = v
  | _, [], _ => by
    by_cases hv : v = Memory.background <;> simp [Memory.write, Memory.read, hv]
  | lo, (b, x) :: m, hm => by
    rw [Memory.wfFrom_cons] at hm
    have hlow : a < b + 1 → Memory.read m a = Memory.background := fun h => Memory.read_of_lt h m hm.2.2
    by_cases hab : a < b
    · have hb : b ≠ a := by omega
      by_cases hv : v = Memory.background
      · simp [Memory.write, Memory.read, hab, hv, hb, hlow (by omega)]
      · simp [Memory.write, Memory.read, hab, hv]
    · by_cases heq : a = b
      · subst heq
        by_cases hv : v = Memory.background
        · simp [Memory.write, hv, hlow (by omega)]
        · simp [Memory.write, Memory.read, hv]
      · have hb : b ≠ a := fun h => heq h.symm
        simp only [Memory.write, if_neg hab, if_neg heq, Memory.read, if_neg hb]
        exact Memory.read_write_same a v (b + 1) m hm.2.2

/-- A write leaves every other byte alone. -/
theorem Memory.read_write_other {a a' : Nat} (v : Byte) (h : a' ≠ a) :
    ∀ m : Memory, Memory.read (Memory.write m a v) a' = Memory.read m a'
  | [] => by
    by_cases hv : v = Memory.background <;> simp [Memory.write, Memory.read, hv, h.symm]
  | (b, x) :: m => by
    by_cases hab : a < b
    · by_cases hv : v = Memory.background <;> simp [Memory.write, Memory.read, hab, hv, h.symm]
    · by_cases heq : a = b
      · subst heq
        by_cases hv : v = Memory.background <;> simp [Memory.write, Memory.read, hv, h.symm]
      · simp only [Memory.write, if_neg hab, if_neg heq, Memory.read, Memory.read_write_other v h m]

/-- A write keeps the canonical form. -/
theorem Memory.wfFrom_write (a : Nat) (v : Byte) :
    ∀ (lo : Nat) (m : Memory), lo ≤ a → Memory.wfFrom lo m = true → Memory.wfFrom lo (Memory.write m a v) = true
  | lo, [], hlo, _ => by
    by_cases hv : v = Memory.background <;> simp [Memory.write, Memory.wfFrom, hv, hlo]
  | lo, (b, x) :: m, hlo, hm => by
    have hm' := (Memory.wfFrom_cons lo b x m).1 hm
    by_cases hab : a < b
    · by_cases hv : v = Memory.background
      · simpa [Memory.write, hab, hv] using hm
      · simp only [Memory.write, if_pos hab, if_neg hv]
        rw [Memory.wfFrom_cons, Memory.wfFrom_cons]
        exact ⟨hlo, hv, by omega, hm'.2⟩
    · by_cases heq : a = b
      · subst heq
        by_cases hv : v = Memory.background
        · simp only [Memory.write, if_neg hab, if_pos hv, if_true]
          exact Memory.wfFrom_mono (by omega) m hm'.2.2
        · simp only [Memory.write, if_neg hab, if_neg hv, if_true]
          rw [Memory.wfFrom_cons]
          exact ⟨hlo, hv, hm'.2.2⟩
      · simp only [Memory.write, if_neg hab, if_neg heq]
        rw [Memory.wfFrom_cons]
        exact ⟨hm'.1, hm'.2.1, Memory.wfFrom_write a v (b + 1) m (by omega) hm'.2.2⟩

/-- A write keeps the canonical form. -/
theorem Memory.wf_write (m : Memory) (a : Nat) (v : Byte) (h : m.wf = true) : (m.write a v).wf = true :=
  Memory.wfFrom_write a v 0 m (Nat.zero_le _) h

/-- A write inside the buffer lists nothing outside it. -/
theorem Memory.below_write {n a : Nat} (v : Byte) (h : a < n) :
    ∀ m : Memory, Memory.below n m = true → Memory.below n (Memory.write m a v) = true
  | [], _ => by
    by_cases hv : v = Memory.background <;> simp [Memory.write, Memory.below, hv, h]
  | (b, x) :: m, hm => by
    have hm' := (Memory.below_cons n b x m).1 hm
    have ih := Memory.below_write v h m hm'.2
    by_cases hab : a < b
    · by_cases hv : v = Memory.background
      · simpa [Memory.write, hab, hv] using hm
      · simp only [Memory.write, if_pos hab, if_neg hv, Memory.below_cons]
        exact ⟨h, hm'⟩
    · by_cases heq : a = b
      · subst heq
        by_cases hv : v = Memory.background
        · simpa [Memory.write, hv] using hm'.2
        · simp only [Memory.write, if_neg hab, if_neg hv, if_true, Memory.below_cons]
          exact ⟨h, hm'.2⟩
      · simp only [Memory.write, if_neg hab, if_neg heq, Memory.below_cons]
        exact ⟨hm'.1, ih⟩

/-- Writing bytes keeps the canonical form. -/
theorem Memory.wf_writeBytes : ∀ (bs : List Byte) (m : Memory) (a : Nat), m.wf = true → (m.writeBytes a bs).wf = true
  | [], _, _, h => h
  | v :: vs, m, a, h => Memory.wf_writeBytes vs (m.write a v) (a + 1) (Memory.wf_write m a v h)

/-- Writing bytes inside the buffer lists nothing outside it. -/
theorem Memory.below_writeBytes {n : Nat} : ∀ (bs : List Byte) (m : Memory) (a : Nat), a + bs.length ≤ n →
    m.below n = true → (m.writeBytes a bs).below n = true
  | [], _, _, _, h => h
  | v :: vs, m, a, hn, h => by
    rw [List.length_cons] at hn
    exact Memory.below_writeBytes vs (m.write a v) (a + 1) (by omega) (Memory.below_write v (by omega) m h)

/-- Writing bytes leaves every byte before and after them alone. -/
theorem Memory.read_writeBytes_other {a' : Nat} : ∀ (bs : List Byte) (m : Memory) (a : Nat),
    a' < a ∨ a + bs.length ≤ a' → (m.writeBytes a bs).read a' = m.read a'
  | [], _, _, _ => rfl
  | v :: vs, m, a, h => by
    rw [List.length_cons] at h
    rw [Memory.writeBytes, Memory.read_writeBytes_other vs (m.write a v) (a + 1) (by omega)]
    exact Memory.read_write_other v (by omega) m

/-- The bytes written are the bytes read. -/
theorem Memory.read_writeBytes : ∀ (bs : List Byte) (m : Memory) (a k : Nat) (hk : k < bs.length), m.wf = true →
    (m.writeBytes a bs).read (a + k) = bs[k]
  | [], _, _, _, hk, _ => absurd hk (Nat.not_lt_zero _)
  | v :: vs, m, a, 0, _, h => by
    rw [Memory.writeBytes, Memory.read_writeBytes_other vs (m.write a v) (a + 1) (by omega)]
    exact Memory.read_write_same a v 0 m h
  | v :: vs, m, a, k + 1, hk, h => by
    have ih := Memory.read_writeBytes vs (m.write a v) (a + 1) k (by simpa using hk) (Memory.wf_write m a v h)
    rw [Memory.writeBytes, show a + (k + 1) = a + 1 + k by omega, ih]
    rfl

/-- Canonical buffers that read alike everywhere are the same data. -/
theorem Memory.eq_of_read_eq : ∀ (m m' : Memory) (lo : Nat), Memory.wfFrom lo m = true → Memory.wfFrom lo m' = true →
    (∀ a, Memory.read m a = Memory.read m' a) → m = m'
  | [], [], _, _, _, _ => rfl
  | [], (b, x) :: m', lo, _, h', hr => by
    have hb := hr b
    simp only [Memory.read, if_true] at hb
    exact absurd hb.symm ((Memory.wfFrom_cons lo b x m').1 h').2.1
  | (b, x) :: m, [], lo, h, _, hr => by
    have hb := hr b
    simp only [Memory.read, if_true] at hb
    exact absurd hb ((Memory.wfFrom_cons lo b x m).1 h).2.1
  | (b, x) :: m, (b', x') :: m', lo, h, h', hr => by
    have hm := (Memory.wfFrom_cons lo b x m).1 h
    have hm' := (Memory.wfFrom_cons lo b' x' m').1 h'
    have hkey : b = b' := by
      rcases Nat.lt_trichotomy b b' with hlt | heq | hgt
      · have hb := hr b
        simp only [Memory.read, if_true, if_neg (show b' ≠ b by omega)] at hb
        exact absurd (hb.trans (Memory.read_of_lt (lo := b' + 1) (by omega) m' hm'.2.2)) hm.2.1
      · exact heq
      · have hb := hr b'
        simp only [Memory.read, if_true, if_neg (show b ≠ b' by omega)] at hb
        exact absurd (hb.symm.trans (Memory.read_of_lt (lo := b + 1) (by omega) m hm.2.2)) hm'.2.1
    subst hkey
    have hval : x = x' := by
      have hb := hr b
      simpa only [Memory.read, if_true] using hb
    subst hval
    have htail : m = m' := by
      refine Memory.eq_of_read_eq m m' (b + 1) hm.2.2 hm'.2.2 fun a => ?_
      by_cases hba : b = a
      · subst hba
        rw [Memory.read_of_lt (Nat.lt_succ_self b) m hm.2.2, Memory.read_of_lt (Nat.lt_succ_self b) m' hm'.2.2]
      · have ha := hr a
        simpa only [Memory.read, if_neg hba] using ha
    rw [htail]

end Sys2Proof.Machine
end

