-- ==== Sys2Proof/Laws/State.lean ====
section
/-! SUPPORT. One lemma per field per update of State, so that no later proof unfolds a record update. -/

namespace Sys2Proof.Machine

variable (s : State) (c : CallResult) (bytes : List Byte) (address : Int)

@[simp] theorem State.setResult_mem : (s.setResult c).mem = s.mem := rfl
@[simp] theorem State.setResult_n : (s.setResult c).n = s.n := rfl
@[simp] theorem State.setResult_address : (s.setResult c).address = s.address := rfl
@[simp] theorem State.setResult_ir : (s.setResult c).ir = s.ir := rfl
@[simp] theorem State.setResult_result : (s.setResult c).result = some c := rfl
@[simp] theorem State.setResult_setResult (d : CallResult) : (s.setResult c).setResult d = s.setResult d := rfl

@[simp] theorem State.latchIr_mem : s.latchIr.mem = s.mem := rfl
@[simp] theorem State.latchIr_n : s.latchIr.n = s.n := rfl
@[simp] theorem State.latchIr_address : s.latchIr.address = s.address := rfl
@[simp] theorem State.latchIr_ir : s.latchIr.ir = if 2 ≤ s.n then some s.mem.instructionWord else none := rfl
@[simp] theorem State.latchIr_result : s.latchIr.result = s.result := rfl

@[simp] theorem State.forgetCall_mem : s.forgetCall.mem = s.mem := rfl
@[simp] theorem State.forgetCall_n : s.forgetCall.n = s.n := rfl
@[simp] theorem State.forgetCall_address : s.forgetCall.address = s.address := rfl
@[simp] theorem State.forgetCall_ir : s.forgetCall.ir = none := rfl
@[simp] theorem State.forgetCall_result : s.forgetCall.result = none := rfl

@[simp] theorem State.present_mem : (s.present bytes address).mem = Memory.writeBytes [] 0 bytes := rfl
@[simp] theorem State.present_n : (s.present bytes address).n = bytes.length := rfl
@[simp] theorem State.present_address : (s.present bytes address).address = address := rfl
@[simp] theorem State.present_ir : (s.present bytes address).ir = none := rfl
@[simp] theorem State.present_result : (s.present bytes address).result = none := rfl

@[simp] theorem State.loadFirst_mem : (s.loadFirst bytes).mem = s.mem.writeBytes 0 bytes := rfl
@[simp] theorem State.loadFirst_n : (s.loadFirst bytes).n = max s.n config.maxLen := rfl
@[simp] theorem State.loadFirst_address : (s.loadFirst bytes).address = s.address := rfl
@[simp] theorem State.loadFirst_ir : (s.loadFirst bytes).ir = none := rfl
@[simp] theorem State.loadFirst_result : (s.loadFirst bytes).result = none := rfl

@[simp] theorem State.returnRecord_eq (r : Record) : State.returnRecord r s = .next (s.setResult (.record r)) := rfl
@[simp] theorem State.raise_eq (f : Failure) : State.raise f s = .next (s.setResult (.failure f)) := rfl

/-- The window reads the inputs only. -/
theorem State.window_setResult : (s.setResult c).window = s.window := rfl

/-- The window reads the inputs only. -/
theorem State.window_latchIr : s.latchIr.window = s.window := rfl

end Sys2Proof.Machine
end

