-- ==== Sys2Proof/Laws/Ops.lean ====
section
/-! SUPPORT. One spec lemma per shared operation: the Operand Decoder with the assembler, the Normalizer, the family
templates, and what `exec` can do at all. -/

namespace Sys2Proof.Machine

/-- A well-formed source is filled to the operand the spec's tables give it. -/
theorem fillValue_source (w : Width) (f : SrcField) (h : f.ok = true) :
    fillValue (sourceOperand w f.reg f.mode) f.ext = some (tabulatedSource w f) := by
  obtain ⟨reg, mode, ext⟩ := f
  cases reg <;> cases mode <;> cases ext <;> first | rfl | exact absurd h (by decide)

/-- A well-formed destination is filled to the operand the spec's tables give it. -/
theorem fillValue_destination (w : Width) (f : DstField) (h : f.ok = true) :
    fillValue (destinationOperand w f.reg f.mode) f.ext = some (tabulatedDestination w f) := by
  obtain ⟨reg, mode, ext⟩ := f
  cases reg <;> cases mode <;> cases ext <;> first | rfl | exact absurd h (by decide)

/-- A record that neither rewrite matches leaves the Normalizer as it came. -/
theorem normalize_of_not (r : Record) (hb : isBranchForm r = false) (hd : isDintForm r = false) : normalizeRecord r = r := by
  simp [normalizeRecord, hb, hd]

/-- The Normalizer looks at two mnemonics only. -/
theorem normalize_of_mnemonic (r : Record) (hm : r.mnemonic ≠ .mov) (hb : r.mnemonic ≠ .bis) : normalizeRecord r = r :=
  normalize_of_not r (by simp [isBranchForm, hm]) (by simp [isDintForm, hb])

/-- The Normalizer does not look at the address. -/
theorem normalize_withAddress (r : Record) (a : Int) :
    normalizeRecord { r with address := a } = { normalizeRecord r with address := a } := by
  unfold normalizeRecord isBranchForm isDintForm
  split <;> [skip; split] <;> rfl

/-- The template of the two-operand family on well-formed operands. -/
theorem twoOperand_of_ok (m : Mnemonic) (w : Width) (src : SrcField) (dst : DstField) (s : State)
    (hs : src.ok = true) (hd : dst.ok = true) :
    twoOperand m w src dst s =
      .next (s.setResult (.record (normalizeRecord
        { address := s.address, mnemonic := m, cls := .twoOperand, src := some (tabulatedSource w src)
          dst := some (tabulatedDestination w dst)
          length := instructionLength (some (tabulatedSource w src)) (some (tabulatedDestination w dst))
          emulated := false }))) := by
  simp only [twoOperand, fillValue_source w src hs, fillValue_destination w dst hd, State.returnRecord_eq]

/-- The template of the one-operand family on a well-formed operand, for a mnemonic the Normalizer leaves. -/
theorem oneOperand_of_ok (m : Mnemonic) (w : Width) (src : SrcField) (s : State) (hs : src.ok = true)
    (hm : m ≠ .mov) (hb : m ≠ .bis) :
    oneOperand m w src s =
      .next (s.setResult (.record
        { address := s.address, mnemonic := m, cls := .oneOperand, src := some (tabulatedSource w src), dst := none
          length := instructionLength (some (tabulatedSource w src)) none, emulated := false })) := by
  simp only [oneOperand, fillValue_source w src hs, State.returnRecord_eq]
  rw [normalize_of_mnemonic _ hm hb]

/-- The template of the branch-only family, for a mnemonic the Normalizer leaves. -/
theorem branchOnly_eq (m : Mnemonic) (off10 : BitVec 10) (s : State) (hm : m ≠ .mov) (hb : m ≠ .bis) :
    branchOnly m off10 s =
      .next (s.setResult (.record
        { address := s.address, mnemonic := m, cls := .branchOnly, src := some (branchSource off10), dst := none
          length := 2, emulated := false })) := by
  rw [branchOnly, normalize_of_mnemonic _ hm hb]
  rfl

/-- What an operation does to a state: it answers a next state that differs in the result only, and the result depends on
the address only, which it copies. -/
def OnlyResult (f : State → Host.Outcome State Fault Refusal) : Prop :=
  ∃ c : CallResult, ∀ s, f s = .next (s.setResult (c.withAddress s.address))

theorem onlyResult_returnRecord (r : Record) :
    OnlyResult fun s => State.returnRecord { r with address := s.address } s :=
  ⟨.record r, fun _ => rfl⟩

theorem onlyResult_raise (f : Failure) : OnlyResult (State.raise f) :=
  ⟨.failure f, fun _ => rfl⟩

theorem onlyResult_twoOperand (m : Mnemonic) (w : Width) (src : SrcField) (dst : DstField) :
    OnlyResult (twoOperand m w src dst) := by
  unfold twoOperand
  split
  · next a b _ _ =>
    refine ⟨.record (normalizeRecord
      { address := 0, mnemonic := m, cls := .twoOperand, src := some a, dst := some b
        length := instructionLength (some a) (some b), emulated := false }), fun s => ?_⟩
    simp only [State.returnRecord_eq, CallResult.withAddress, ← normalize_withAddress]
  · exact onlyResult_raise _

theorem onlyResult_oneOperand (m : Mnemonic) (w : Width) (src : SrcField) : OnlyResult (oneOperand m w src) := by
  unfold oneOperand
  split
  · next a _ =>
    refine ⟨.record (normalizeRecord
      { address := 0, mnemonic := m, cls := .oneOperand, src := some a, dst := none
        length := instructionLength (some a) none, emulated := false }), fun s => ?_⟩
    simp only [State.returnRecord_eq, CallResult.withAddress, ← normalize_withAddress]
  · exact onlyResult_raise _

theorem onlyResult_branchOnly (m : Mnemonic) (off10 : BitVec 10) : OnlyResult (branchOnly m off10) := by
  refine ⟨.record (normalizeRecord
    { address := 0, mnemonic := m, cls := .branchOnly, src := some (branchSource off10), dst := none
      length := instructionLength (some (branchSource off10)) none, emulated := false }), fun s => ?_⟩
  simp only [branchOnly, State.returnRecord_eq, CallResult.withAddress, ← normalize_withAddress]

/-- What an instruction can do at all. -/
theorem onlyResult_exec (i : Instr) : OnlyResult (exec i) := by
  cases i with
  | ret =>
    exact onlyResult_returnRecord
      { address := 0, mnemonic := .ret, cls := .none, src := none, dst := none, length := 2, emulated := true }
  | mov => exact onlyResult_twoOperand ..
  | add => exact onlyResult_twoOperand ..
  | addc => exact onlyResult_twoOperand ..
  | subc => exact onlyResult_twoOperand ..
  | sub => exact onlyResult_twoOperand ..
  | cmp => exact onlyResult_twoOperand ..
  | dadd => exact onlyResult_twoOperand ..
  | bit => exact onlyResult_twoOperand ..
  | bic => exact onlyResult_twoOperand ..
  | bis => exact onlyResult_twoOperand ..
  | xor => exact onlyResult_twoOperand ..
  | and => exact onlyResult_twoOperand ..
  | rrc => exact onlyResult_oneOperand ..
  | swpb => exact onlyResult_oneOperand ..
  | rra => exact onlyResult_oneOperand ..
  | sxt => exact onlyResult_oneOperand ..
  | push => exact onlyResult_oneOperand ..
  | call => exact onlyResult_oneOperand ..
  | reti => exact onlyResult_oneOperand ..
  | jnz => exact onlyResult_branchOnly ..
  | jz => exact onlyResult_branchOnly ..
  | jnc => exact onlyResult_branchOnly ..
  | jc => exact onlyResult_branchOnly ..
  | jn => exact onlyResult_branchOnly ..
  | jge => exact onlyResult_branchOnly ..
  | jl => exact onlyResult_branchOnly ..
  | jmp => exact onlyResult_branchOnly ..
  | br => exact onlyResult_twoOperand ..
  | dint => exact onlyResult_twoOperand ..
  | invalidOpcode0 => exact onlyResult_raise _
  | invalidOpcode1Selector7 => exact onlyResult_raise _

/-- What a step can do at all: it latches IR and sets the result, which depends on the fetch window and the address
only. -/
theorem step_onlyResult (bytes : List Byte) :
    ∃ c : CallResult, ∀ s : State, s.window = bytes →
      step s = .next (s.latchIr.setResult (c.withAddress s.address)) := by
  cases hd : decode bytes with
  | ok p =>
    obtain ⟨c, hc⟩ := onlyResult_exec p.1
    refine ⟨c, fun s hw => ?_⟩
    simp only [step, hw, hd]
    exact hc s.latchIr
  | error e =>
    refine ⟨.failure .truncatedInput, fun s hw => ?_⟩
    simp only [step, hw, hd]
    rfl

end Sys2Proof.Machine
end

