-- ==== Sys2Proof/Laws/PerInstr.lean ====
section
/-! SUPPORT. The per-instruction family EncodedLength: the length table of 30_encoding.md R64, a function of the
instruction word alone, gives the number of bytes the encoder lays down, and no length for the two invalid rows. -/

namespace Sys2Proof.Laws.EncodedLength

open Sys2Proof.Machine

/-- The number of bytes of an instruction's encoding; none for the two invalid rows. -/
def bytesOf (i : Instr) : Option Nat :=
  match i with
  | .invalidOpcode0 _ => none
  | .invalidOpcode1Selector7 _ _ => none
  | i => some (encodeBytes i).length

/-- The length table agrees with the encoder on a well-formed instruction. -/
def Statement (i : Instr) : Prop :=
  i.wf = true → lengthTable (encodeWord i) = bytesOf i

/-- `2 * w.length` bytes for the extension words `w`. -/
theorem length_flatMap_littleBytes (ws : List Word) : (ws.flatMap littleBytes).length = 2 * ws.length := by
  induction ws with
  | nil => rfl
  | cons w ws ih => rw [List.flatMap_cons, List.length_append, ih, List.length_cons, littleBytes]; simp; omega

theorem length_encodeBytes (i : Instr) : (encodeBytes i).length = 2 + 2 * (extensionWords i).length := by
  obtain ⟨b0, b1, h, -⟩ := instructionBytes_eq (encodeWord i)
  rw [encodeBytes, h, List.length_append, length_flatMap_littleBytes]
  rfl

/-- A source's entry of the length table counts its extension word. -/
theorem source_entry (f : SrcField) (h : f.ok = true) :
    lengthTableSource (rawSrcModeBits f.mode) (regIndex f.reg) = 2 * f.ext.toList.length := by
  obtain ⟨reg, mode, ext⟩ := f
  cases reg <;> cases mode <;> cases ext <;> first | rfl | cases h

/-- A destination's entry of the length table counts its extension word. -/
theorem destination_entry (f : DstField) (h : f.ok = true) :
    (if rawDstModeBit f.mode = 1#1 then 2 else 0) = 2 * f.ext.toList.length := by
  obtain ⟨reg, mode, ext⟩ := f
  cases reg <;> cases mode <;> cases ext <;> first | rfl | cases h

/-- The instruction word of a well-formed instruction other than `ret` is not the return word. -/
theorem ne_retWord (i : Instr) (h : i.wf = true) (hi : i ≠ .ret) : encodeWord i ≠ config.retWord := by
  have h2 : i.rowOk = true := (Bool.and_eq_true_iff.1 h).2
  cases i <;> first
    | exact absurd rfl hi
    | (simp only [Instr.rowOk, Bool.and_eq_true, decide_eq_true_eq] at h2
       first | exact h2 | exact h2.2)

theorem table_two (op : BitVec 4) (w : Width) (src : SrcField) (dst : DstField) (hs : src.ok = true) (hd : dst.ok = true)
    (hop : op ≠ 0#4 ∧ op ≠ 1#4 ∧ op ≠ 2#4 ∧ op ≠ 3#4) (hr : encodeTwo op w src dst ≠ config.retWord) :
    lengthTable (encodeTwo op w src dst) = some (2 + 2 * (src.ext.toList ++ dst.ext.toList).length) := by
  simp only [lengthTable, if_neg hr, slice_opcode_encodeTwo, slice_smode_encodeTwo, slice_sreg_encodeTwo,
    slice_dmode_encodeTwo, if_neg hop.1, if_neg hop.2.1, hop.2.2.1, hop.2.2.2, or_self, if_false, source_entry src hs,
    destination_entry dst hd, List.length_append]
  congr 1
  omega

theorem table_one (sel : BitVec 3) (u : BitVec 2) (w : Width) (src : SrcField) (hs : src.ok = true) (hsel : sel ≠ 7#3)
    (hr : encodeOne sel u w src ≠ config.retWord) :
    lengthTable (encodeOne sel u w src) = some (2 + 2 * src.ext.toList.length) := by
  simp only [lengthTable, if_neg hr, slice_opcode_encodeOne, slice_smode_encodeOne, slice_sreg_encodeOne,
    slice_sel_encodeOne, if_neg hsel, source_entry src hs]
  rfl

theorem table_branch (op : BitVec 4) (sel : BitVec 2) (off10 : BitVec 10) (hop : op = 2#4 ∨ op = 3#4)
    (hr : encodeBranch op sel off10 ≠ config.retWord) : lengthTable (encodeBranch op sel off10) = some 2 := by
  simp only [lengthTable, if_neg hr, slice_opcode_encodeBranch, if_pos hop]
  rcases hop with rfl | rfl <;> rfl

/-- The shared proof of the rows whose fields are a source and a destination. -/
theorem of_two (i : Instr) (op : BitVec 4) (w : Width) (src : SrcField) (dst : DstField) (hi : i ≠ .ret)
    (hw : encodeWord i = encodeTwo op w src dst) (hx : extensionWords i = src.ext.toList ++ dst.ext.toList)
    (ho : i.operandsOk = (src.ok && dst.ok)) (hb : bytesOf i = some (encodeBytes i).length)
    (hop : op ≠ 0#4 ∧ op ≠ 1#4 ∧ op ≠ 2#4 ∧ op ≠ 3#4) : Statement i := by
  intro h
  have hok := (Bool.and_eq_true_iff.1 h).1
  rw [ho, Bool.and_eq_true] at hok
  have hr := ne_retWord i h hi
  rw [hb, length_encodeBytes, hx, hw, table_two op w src dst hok.1 hok.2 hop (hw ▸ hr)]

/-- The shared proof of the rows whose one operand is a source. -/
theorem of_one (i : Instr) (sel : BitVec 3) (u : BitVec 2) (w : Width) (src : SrcField) (hi : i ≠ .ret)
    (hw : encodeWord i = encodeOne sel u w src) (hx : extensionWords i = src.ext.toList)
    (ho : i.operandsOk = src.ok) (hb : bytesOf i = some (encodeBytes i).length) (hsel : sel ≠ 7#3) : Statement i := by
  intro h
  have hok := (Bool.and_eq_true_iff.1 h).1
  rw [ho] at hok
  have hr := ne_retWord i h hi
  rw [hb, length_encodeBytes, hx, hw, table_one sel u w src hok hsel (hw ▸ hr)]

/-- The shared proof of the branch-only rows. -/
theorem of_branch (i : Instr) (op : BitVec 4) (sel : BitVec 2) (off10 : BitVec 10) (hi : i ≠ .ret)
    (hw : encodeWord i = encodeBranch op sel off10) (hx : extensionWords i = [])
    (hb : bytesOf i = some (encodeBytes i).length) (hop : op = 2#4 ∨ op = 3#4) : Statement i := by
  intro h
  have hr := ne_retWord i h hi
  rw [hb, length_encodeBytes, hx, hw, table_branch op sel off10 hop (hw ▸ hr)]
  rfl

variable (u : BitVec 2) (w : Width) (src : SrcField) (dst : DstField) (off10 : BitVec 10)

theorem ret : Statement .ret := fun _ => by decide
theorem mov : Statement (.mov w src dst) := of_two _ 4#4 w src dst (by simp) rfl rfl rfl rfl (by decide)
theorem add : Statement (.add w src dst) := of_two _ 5#4 w src dst (by simp) rfl rfl rfl rfl (by decide)
theorem addc : Statement (.addc w src dst) := of_two _ 6#4 w src dst (by simp) rfl rfl rfl rfl (by decide)
theorem subc : Statement (.subc w src dst) := of_two _ 7#4 w src dst (by simp) rfl rfl rfl rfl (by decide)
theorem sub : Statement (.sub w src dst) := of_two _ 8#4 w src dst (by simp) rfl rfl rfl rfl (by decide)
theorem cmp : Statement (.cmp w src dst) := of_two _ 9#4 w src dst (by simp) rfl rfl rfl rfl (by decide)
theorem dadd : Statement (.dadd w src dst) := of_two _ 10#4 w src dst (by simp) rfl rfl rfl rfl (by decide)
theorem bit : Statement (.bit w src dst) := of_two _ 11#4 w src dst (by simp) rfl rfl rfl rfl (by decide)
theorem bic : Statement (.bic w src dst) := of_two _ 12#4 w src dst (by simp) rfl rfl rfl rfl (by decide)
theorem bis : Statement (.bis w src dst) := of_two _ 13#4 w src dst (by simp) rfl rfl rfl rfl (by decide)
theorem xor : Statement (.xor w src dst) := of_two _ 14#4 w src dst (by simp) rfl rfl rfl rfl (by decide)
theorem and : Statement (.and w src dst) := of_two _ 15#4 w src dst (by simp) rfl rfl rfl rfl (by decide)
theorem rrc : Statement (.rrc u w src) := of_one _ 0#3 u w src (by simp) rfl rfl rfl rfl (by decide)
theorem swpb : Statement (.swpb u w src) := of_one _ 1#3 u w src (by simp) rfl rfl rfl rfl (by decide)
theorem rra : Statement (.rra u w src) := of_one _ 2#3 u w src (by simp) rfl rfl rfl rfl (by decide)
theorem sxt : Statement (.sxt u w src) := of_one _ 3#3 u w src (by simp) rfl rfl rfl rfl (by decide)
theorem push : Statement (.push u w src) := of_one _ 4#3 u w src (by simp) rfl rfl rfl rfl (by decide)
theorem call : Statement (.call u w src) := of_one _ 5#3 u w src (by simp) rfl rfl rfl rfl (by decide)
theorem reti : Statement (.reti u w src) := of_one _ 6#3 u w src (by simp) rfl rfl rfl rfl (by decide)
theorem jnz : Statement (.jnz off10) := of_branch _ 2#4 0#2 off10 (by simp) rfl rfl rfl (by decide)
theorem jz : Statement (.jz off10) := of_branch _ 2#4 1#2 off10 (by simp) rfl rfl rfl (by decide)
theorem jnc : Statement (.jnc off10) := of_branch _ 2#4 2#2 off10 (by simp) rfl rfl rfl (by decide)
theorem jc : Statement (.jc off10) := of_branch _ 2#4 3#2 off10 (by simp) rfl rfl rfl (by decide)
theorem jn : Statement (.jn off10) := of_branch _ 3#4 0#2 off10 (by simp) rfl rfl rfl (by decide)
theorem jge : Statement (.jge off10) := of_branch _ 3#4 1#2 off10 (by simp) rfl rfl rfl (by decide)
theorem jl : Statement (.jl off10) := of_branch _ 3#4 2#2 off10 (by simp) rfl rfl rfl (by decide)
theorem jmp : Statement (.jmp off10) := of_branch _ 3#4 3#2 off10 (by simp) rfl rfl rfl (by decide)

theorem br (dmode : RawDstMode) (dext : Option Word) : Statement (.br w src dmode dext) :=
  of_two _ 4#4 w src ⟨.pc, dmode, dext⟩ (by simp) rfl rfl rfl rfl (by decide)

theorem dint (sreg : Reg) (smode : RawSrcMode) (dmode : RawDstMode) (dext : Option Word) :
    Statement (.dint w sreg smode dmode dext) :=
  of_two _ 13#4 w ⟨sreg, smode, some config.dintSrcValue⟩ ⟨.sr, dmode, dext⟩ (by simp) rfl rfl rfl rfl (by decide)

theorem invalidOpcode0 (low : BitVec 12) : Statement (.invalidOpcode0 low) := by
  intro h
  have hr := ne_retWord _ h (by simp)
  simp only [encodeWord] at hr
  simp only [encodeWord, lengthTable, if_neg hr, slice_opcode_low, if_true, bytesOf]

theorem invalidOpcode1Selector7 (low : BitVec 7) : Statement (.invalidOpcode1Selector7 u low) := by
  intro h
  have hr := ne_retWord _ h (by simp)
  simp only [encodeWord] at hr
  simp only [encodeWord, lengthTable, if_neg hr, slice_opcode_selector7, slice_sel_selector7, if_true, bytesOf]
  rfl

end Sys2Proof.Laws.EncodedLength
end

