-- ==== Sys2Proof/Laws/Pipeline.lean ====
section
/-! SUPPORT. One spec lemma per stage of the decode function: what the classifier says of a word, the extra bytes of an
operand, what filling an operand changes, and the three things the Normalizer can do. -/

namespace Sys2Proof.Machine

/-! ### The classifier -/

/-- Classification fails exactly on opcode nibble 0, and on selector 7 of opcode nibble 1. -/
theorem classify_eq_none (ir : Word) :
    classify ir = none ↔ slice ir 12 4 = 0#4 ∨ (slice ir 12 4 = 1#4 ∧ slice ir 7 3 = 7#3) := by
  unfold classify
  generalize slice ir 12 4 = a
  generalize slice ir 7 3 = b
  generalize slice ir 10 2 = c
  revert a b c
  decide

/-- A class, the opcode nibbles it stands for, and what its mnemonics are like. -/
def ClassFits (ir : Word) (m : Mnemonic) (cls : InstrClass) : Prop :=
  m.recordClass = cls ∧ m ≠ .br ∧
    (cls = .oneOperand ∧ slice ir 12 4 = 1#4 ∧ slice ir 7 3 ≠ 7#3 ∨
      cls = .branchOnly ∧ (slice ir 12 4 = 2#4 ∨ slice ir 12 4 = 3#4) ∨
      cls = .twoOperand ∧ slice ir 12 4 ∉ [0#4, 1#4, 2#4, 3#4]) ∧
    (m = .mov ↔ slice ir 12 4 = 4#4) ∧ (m = .bis ↔ slice ir 12 4 = 13#4)

theorem classify_eq_some (ir : Word) (m : Mnemonic) (cls : InstrClass) (h : classify ir = some (m, cls)) :
    ClassFits ir m cls := by
  have key : ∀ (a : BitVec 4) (b : BitVec 3) (c : BitVec 2), (classifyFields a b c).all (fun p => decide
      (p.1.recordClass = p.2 ∧ p.1 ≠ .br ∧
        (p.2 = .oneOperand ∧ a = 1#4 ∧ b ≠ 7#3 ∨ p.2 = .branchOnly ∧ (a = 2#4 ∨ a = 3#4) ∨
          p.2 = .twoOperand ∧ a ∉ [0#4, 1#4, 2#4, 3#4]) ∧
        (p.1 = .mov ↔ a = 4#4) ∧ (p.1 = .bis ↔ a = 13#4))) = true := by
    decide
  have hk := key (slice ir 12 4) (slice ir 7 3) (slice ir 10 2)
  rw [show classifyFields (slice ir 12 4) (slice ir 7 3) (slice ir 10 2) = some (m, cls) from h] at hk
  unfold ClassFits
  exact of_decide_eq_true hk

/-! ### Operands -/

/-- A mode takes two extra bytes or none. -/
theorem extraOf_eq (m : AddrMode) : extraOf m = 0 ∨ extraOf m = 2 := by
  cases m <;> first | exact .inl rfl | exact .inr rfl

theorem fillValue_of_none (o : Operand) (x : Option Word) (h : o.extra = 0) : fillValue o x = some o := by
  simp [fillValue, h]

theorem fillValue_of_word (o : Operand) (x : Word) (h : o.extra = 2) :
    fillValue o (some x) = some { o with value := some (x.toNat : Int) } := by
  simp [fillValue, h]

theorem fillValue_of_missing (o : Operand) (h : o.extra = 2) : fillValue o none = none := by
  simp [fillValue, h]

/-- The extra bytes of a source, by the length table. -/
theorem extraOf_source : ∀ (a : BitVec 2) (r : BitVec 4),
    extraOf (reinterpretSource (regOfIndex r) (rawSrcModeOfBits a)) = lengthTableSource a r := by
  decide

/-- The extra bytes of a destination, by the length table. -/
theorem extraOf_destination : ∀ (a : BitVec 1) (r : BitVec 4),
    extraOf (reinterpretDestination (regOfIndex r) (rawDstModeOfBit a)) = if a = 1#1 then 2 else 0 := by
  decide

variable (buf : Memory) (off : Nat) (o : Operand)

@[simp] theorem readExtension_extra : (readExtension buf off o).extra = o.extra := by unfold readExtension; split <;> rfl
@[simp] theorem readExtension_width : (readExtension buf off o).width = o.width := by unfold readExtension; split <;> rfl
@[simp] theorem readExtension_mode : (readExtension buf off o).mode = o.mode := by unfold readExtension; split <;> rfl
@[simp] theorem readExtension_reg : (readExtension buf off o).reg = o.reg := by unfold readExtension; split <;> rfl

/-! ### The Normalizer -/

/-- What the Normalizer can do to a record. -/
theorem normalizeRecord_cases (r : Record) :
    (isBranchForm r = true ∧ normalizeRecord r = { r with mnemonic := .br, emulated := true }) ∨
    (isBranchForm r = false ∧ isDintForm r = true ∧
      normalizeRecord r = { r with mnemonic := .dint, cls := .none, src := none, dst := none, emulated := true }) ∨
    (isBranchForm r = false ∧ isDintForm r = false ∧ normalizeRecord r = r) := by
  unfold normalizeRecord
  cases hb : isBranchForm r <;> cases hd : isDintForm r <;> simp

end Sys2Proof.Machine
end

