-- ==== Sys2Proof/Laws/Window.lean ====
section
/-! SUPPORT. The fetch window: what it holds, and that it is all a step sees of the buffer (10_state.md R11). -/

namespace Sys2Proof.Machine

@[simp] theorem State.window_length (s : State) : s.window.length = min s.n config.maxLen := by
  simp [State.window]

theorem State.window_get (s : State) (k : Nat) (h : k < s.window.length) : s.window[k] = s.mem.read k := by
  simp [State.window]

/-- Two states whose buffers agree on the window have one window. -/
theorem State.window_congr (s t : State) (hn : min s.n config.maxLen = min t.n config.maxLen)
    (hr : ∀ a, a < min s.n config.maxLen → s.mem.read a = t.mem.read a) : s.window = t.window := by
  unfold State.window
  rw [← hn]
  apply List.map_congr_left
  intro a ha
  exact hr a (List.mem_range.1 ha)

/-- A buffer of fewer than two bytes is rejected. -/
theorem decode_of_short (s : State) (h : s.n < 2) : decode s.window = .error .noInstructionWord := by
  have hl : s.window.length < 2 := by rw [State.window_length]; omega
  match hw : s.window, hl with
  | [], _ => rfl
  | [_], _ => rfl
  | _ :: _ :: r, hl => exact absurd hl (by simp)

/-- A window of at least two bytes is the instruction word's two bytes and the rest. -/
theorem State.window_eq_cons (s : State) (h : 2 ≤ s.n) :
    s.window = s.mem.read 0 :: s.mem.read 1 :: s.window.drop 2 := by
  have hl : 2 ≤ s.window.length := by rw [State.window_length]; simp [config]; omega
  have h0 := s.window_get 0 (by omega)
  have h1 := s.window_get 1 (by omega)
  rw [← h0, ← h1]
  conv_lhs => rw [← List.drop_zero (l := s.window)]
  rw [List.drop_eq_getElem_cons (by omega), List.drop_eq_getElem_cons (by omega)]

/-- A step decodes the instruction word of its buffer. -/
theorem decode_window (s : State) (h : 2 ≤ s.n) :
    decode s.window = decodeWord s.mem.instructionWord (s.window.drop 2) := by
  conv_lhs => rw [State.window_eq_cons s h]
  rfl

/-- The window of a presented buffer is the buffer, cut at `MAX_LEN`. -/
theorem State.window_present (s : State) (bytes : List Byte) (address : Int) :
    (s.present bytes address).window = bytes.take config.maxLen := by
  apply List.ext_getElem
  · simp [Nat.min_comm]
  · intro k h1 h2
    rw [State.window_get _ k h1, State.present_mem, List.getElem_take]
    have hk : k < bytes.length := by
      rw [List.length_take] at h2
      omega
    have := Memory.read_writeBytes bytes [] 0 k hk rfl
    rwa [Nat.zero_add] at this

/-- An extension word taken from offset `k` of the window is the little-endian word of the buffer there, if the buffer
holds it and it lies in the window. -/
theorem takeExtension_window (s : State) (k : Nat) :
    takeExtension 2 (s.window.drop k) =
      if k + 2 ≤ min s.n config.maxLen then .ok (some (s.mem.read2 k), s.window.drop (k + 2))
      else .error .missingExtensionWord := by
  have hl := s.window_length
  unfold takeExtension
  by_cases h : k + 2 ≤ min s.n config.maxLen
  · rw [if_pos rfl, if_pos h, List.drop_eq_getElem_cons (by omega), List.drop_eq_getElem_cons (by omega)]
    simp only [State.window_get, Memory.read2]
  · rw [if_pos rfl, if_neg h]
    have hd : (s.window.drop k).length < 2 := by
      rw [List.length_drop]
      omega
    match hw : s.window.drop k, hd with
    | [], _ => rfl
    | [_], _ => rfl
    | _ :: _ :: r, hd => exact absurd hd (by simp)

/-- A result depends on the window and the address only. -/
theorem step_congr (s t : State) (hw : s.window = t.window) :
    ∃ c : CallResult, step s = .next (s.latchIr.setResult (c.withAddress s.address)) ∧
      step t = .next (t.latchIr.setResult (c.withAddress t.address)) := by
  obtain ⟨c, hc⟩ := step_onlyResult s.window
  exact ⟨c, hc s rfl, hc t hw.symm⟩

end Sys2Proof.Machine
end

