-- ==== Sys2Proof/Tests/Slice0.lean ====
section
/-! SUPPORT. Tests, each on one word or one step, their expected results from 95_test_vectors.md (V numbers) or written
out from the encodings of 30_encoding.md; and, for every statement with hypotheses, a state that meets them all. -/

namespace Sys2Proof.Tests

open Sys2Proof.Machine

/-! ### Well-formedness refuses ill-formed terms -/

/-- A register-direct source. -/
def direct (r : Reg) : SrcField := ⟨r, .registerDirect, none⟩

/-- A register-direct destination. -/
def into (r : Reg) : DstField := ⟨r, .registerDirect, none⟩

theorem test_wf_missing_source_word : Instr.wf (.add .word ⟨.r5, .indexed, none⟩ (into .r6)) = false := by decide
theorem test_wf_surplus_source_word : Instr.wf (.add .word ⟨.r5, .registerDirect, some 1⟩ (into .r6)) = false := by decide
theorem test_wf_constant_takes_no_word : Instr.wf (.add .word ⟨.cg, .indexed, some 1⟩ (into .r6)) = false := by decide
theorem test_wf_missing_destination_word : Instr.wf (.add .word (direct .r5) ⟨.r6, .indexed, none⟩) = false := by decide
theorem test_wf_surplus_destination_word :
    Instr.wf (.add .word (direct .r5) ⟨.r6, .registerDirect, some 1⟩) = false := by decide
theorem test_wf_one_operand_missing_word : Instr.wf (.push 0 .word ⟨.pc, .indirectAutoincrement, none⟩) = false := by decide
theorem test_wf_mov_into_pc : Instr.wf (.mov .word (direct .r5) (into .pc)) = false := by decide
theorem test_wf_bis_that_is_dint :
    Instr.wf (.bis .word ⟨.pc, .indirectAutoincrement, some 0x00f0⟩ (into .sr)) = false := by decide
theorem test_wf_return_word_is_not_br :
    Instr.wf (.br .word ⟨.sp, .indirectAutoincrement, none⟩ .registerDirect none) = false := by decide
theorem test_wf_br_missing_word : Instr.wf (.br .word (direct .r5) .indexed none) = false := by decide
theorem test_wf_dint_source_without_word : Instr.wf (.dint .word .r5 .registerDirect .registerDirect none) = false := by decide
theorem test_wf_dint_missing_word : Instr.wf (.dint .word .pc .indirectAutoincrement .indexed none) = false := by decide
theorem test_wf_good_mov : Instr.wf (.mov .word ⟨.r5, .indexed, some 0x1234⟩ ⟨.sr, .indexed, some 0x5678⟩) = true := by decide
theorem test_wf_good_dint :
    Instr.wf (.dint .byte .pc .indirectAutoincrement .indexed (some 0x0120)) = true := by decide

/-! ### Decoding: every constructor, its word written out field by field from 30_encoding.md R46 to R53, R57, R59 -/

/-- The bytes of an instruction word and its extension words, each low byte first. -/
def asBytes (word : Word) (ext : List Word) : List Byte :=
  (word :: ext).flatMap fun w => [w.extractLsb' 0 8, w.extractLsb' 8 8]

/-- `opcode | sreg | dmode | bw | smode | dreg` (R46). -/
def twoWord (opcode sreg : BitVec 4) (dmode bw : BitVec 1) (smode : BitVec 2) (dreg : BitVec 4) : Word :=
  opcode ++ sreg ++ dmode ++ bw ++ smode ++ dreg

/-- `0001 | unexamined | selector | bw | smode | sreg` (R47). -/
def oneWord (unexamined : BitVec 2) (selector : BitVec 3) (bw : BitVec 1) (smode : BitVec 2) (sreg : BitVec 4) : Word :=
  1#4 ++ unexamined ++ selector ++ bw ++ smode ++ sreg

/-- `opcode | selector | off10` (R48). -/
def branchWord (opcode : BitVec 4) (selector : BitVec 2) (off10 : BitVec 10) : Word :=
  opcode ++ selector ++ off10

/-- The bytes are exactly the instruction. -/
def DecodesTo (word : Word) (ext : List Word) (i : Instr) : Prop :=
  decode (asBytes word ext) = .ok (i, [])

/-- `0100 0001 0011 0000` (R53; the value is log 1's). -/
theorem test_decode_ret : DecodesTo 0x4130 [] .ret := rfl

theorem test_decode_mov : DecodesTo (twoWord 4 5 1 0 1 2) [0x1234, 0x5678]
    (.mov .word ⟨.r5, .indexed, some 0x1234⟩ ⟨.sr, .indexed, some 0x5678⟩) := rfl
theorem test_decode_add : DecodesTo (twoWord 5 10 1 1 3 7) [0x0003]
    (.add .byte ⟨.r10, .indirectAutoincrement, none⟩ ⟨.r7, .indexed, some 0x0003⟩) := rfl
theorem test_decode_addc : DecodesTo (twoWord 6 3 0 0 0 12) []
    (.addc .word ⟨.cg, .registerDirect, none⟩ ⟨.r12, .registerDirect, none⟩) := rfl
theorem test_decode_subc : DecodesTo (twoWord 7 4 0 0 1 5) [0x0004]
    (.subc .word ⟨.r4, .indexed, some 0x0004⟩ ⟨.r5, .registerDirect, none⟩) := rfl
theorem test_decode_sub : DecodesTo (twoWord 8 3 0 0 1 15) []
    (.sub .word ⟨.cg, .indexed, none⟩ ⟨.r15, .registerDirect, none⟩) := rfl
theorem test_decode_cmp : DecodesTo (twoWord 9 2 0 0 3 9) []
    (.cmp .word ⟨.sr, .indirectAutoincrement, none⟩ ⟨.r9, .registerDirect, none⟩) := rfl
theorem test_decode_dadd : DecodesTo (twoWord 10 5 1 0 1 2) [0x1234, 0x5678]
    (.dadd .word ⟨.r5, .indexed, some 0x1234⟩ ⟨.sr, .indexed, some 0x5678⟩) := rfl
theorem test_decode_bit : DecodesTo (twoWord 11 10 1 1 3 7) [0x0003]
    (.bit .byte ⟨.r10, .indirectAutoincrement, none⟩ ⟨.r7, .indexed, some 0x0003⟩) := rfl
theorem test_decode_bic : DecodesTo (twoWord 12 3 0 0 0 12) []
    (.bic .word ⟨.cg, .registerDirect, none⟩ ⟨.r12, .registerDirect, none⟩) := rfl
theorem test_decode_bis : DecodesTo (twoWord 13 4 0 0 1 5) [0x0004]
    (.bis .word ⟨.r4, .indexed, some 0x0004⟩ ⟨.r5, .registerDirect, none⟩) := rfl
theorem test_decode_xor : DecodesTo (twoWord 14 3 0 0 1 15) []
    (.xor .word ⟨.cg, .indexed, none⟩ ⟨.r15, .registerDirect, none⟩) := rfl
theorem test_decode_and : DecodesTo (twoWord 15 2 0 0 3 9) []
    (.and .word ⟨.sr, .indirectAutoincrement, none⟩ ⟨.r9, .registerDirect, none⟩) := rfl
theorem test_decode_rrc : DecodesTo (oneWord 3 0 0 0 5) []
    (.rrc 3 .word ⟨.r5, .registerDirect, none⟩) := rfl
theorem test_decode_swpb : DecodesTo (oneWord 0 1 1 0 14) []
    (.swpb 0 .byte ⟨.r14, .registerDirect, none⟩) := rfl
theorem test_decode_rra : DecodesTo (oneWord 0 2 1 2 4) []
    (.rra 0 .byte ⟨.r4, .indirectRegister, none⟩) := rfl
theorem test_decode_sxt : DecodesTo (oneWord 0 3 0 1 8) [0x0002]
    (.sxt 0 .word ⟨.r8, .indexed, some 0x0002⟩) := rfl
theorem test_decode_push : DecodesTo (oneWord 0 4 0 3 0) [0x1234]
    (.push 0 .word ⟨.pc, .indirectAutoincrement, some 0x1234⟩) := rfl
theorem test_decode_call : DecodesTo (oneWord 0 5 0 1 2) [0x0200]
    (.call 0 .word ⟨.sr, .indexed, some 0x0200⟩) := rfl
theorem test_decode_reti : DecodesTo (oneWord 1 6 0 1 1) [0x0010]
    (.reti 1 .word ⟨.sp, .indexed, some 0x0010⟩) := rfl
theorem test_decode_jnz : DecodesTo (branchWord 2 0 0x200) [] (.jnz 0x200) := rfl
theorem test_decode_jz : DecodesTo (branchWord 2 1 0x001) [] (.jz 0x001) := rfl
theorem test_decode_jnc : DecodesTo (branchWord 2 2 0x040) [] (.jnc 0x040) := rfl
theorem test_decode_jc : DecodesTo (branchWord 2 3 0x3ff) [] (.jc 0x3ff) := rfl
theorem test_decode_jn : DecodesTo (branchWord 3 0 0x1ff) [] (.jn 0x1ff) := rfl
theorem test_decode_jge : DecodesTo (branchWord 3 1 0x155) [] (.jge 0x155) := rfl
theorem test_decode_jl : DecodesTo (branchWord 3 2 0x2aa) [] (.jl 0x2aa) := rfl
theorem test_decode_jmp : DecodesTo (branchWord 3 3 0x3ff) [] (.jmp 0x3ff) := rfl
theorem test_decode_br : DecodesTo (twoWord 4 0 1 0 3 0) [0x4500, 0x0002]
    (.br .word ⟨.pc, .indirectAutoincrement, some 0x4500⟩ .indexed (some 0x0002)) := rfl
theorem test_decode_dint : DecodesTo (twoWord 13 5 1 1 1 2) [0x00f0, 0x0120]
    (.dint .byte .r5 .indexed .indexed (some 0x0120)) := rfl
theorem test_decode_invalid_opcode_0 : DecodesTo 0x0a34 [] (.invalidOpcode0 0xa34) := rfl
theorem test_decode_invalid_opcode_1_selector_7 : DecodesTo (oneWord 3 7 1 3 15) [] (.invalidOpcode1Selector7 3 0x7f) := rfl

/-! ### Steps: the vectors of 95_test_vectors.md -/

/-- The result of one call on the bytes at address 0. -/
def resultOf (bytes : List Byte) : Option CallResult :=
  match step (State.reset.present bytes 0) with
  | .next t => t.result
  | .fault _ => none
  | .refused _ => none

/-- V31: the return word. -/
theorem test_step_ret : resultOf [0x30, 0x41] = some (.record ⟨0, .ret, .none, none, none, 2, true⟩) := by decide

/-- V100: the return word followed by two more bytes: they are not read. -/
theorem test_step_ret_followed : resultOf [0x30, 0x41, 0xff, 0xff] =
    some (.record ⟨0, .ret, .none, none, none, 2, true⟩) := by decide

/-- V73: mov 0x1234(r5), &0x5678: two extension words, source first. -/
theorem test_step_mov : resultOf [0x92, 0x45, 0x34, 0x12, 0x78, 0x56] =
    some (.record ⟨0, .mov, .twoOperand, some ⟨.indexed, some .r5, .word, some 4660, 2⟩,
      some ⟨.absolute, some .sr, .word, some 22136, 2⟩, 6, false⟩) := by decide

/-- V63: mov.b #0x1234, r6: byte width, value not cut to 8 bits. -/
theorem test_step_mov_byte : resultOf [0x76, 0x40, 0x34, 0x12] =
    some (.record ⟨0, .mov, .twoOperand, some ⟨.immediate, some .pc, .byte, some 4660, 2⟩,
      some ⟨.registerDirect, some .r6, .byte, none, 0⟩, 4, false⟩) := by decide

/-- V68: add.b @r10+, 3(r7). -/
theorem test_step_add : resultOf [0xf7, 0x5a, 0x03, 0x00] =
    some (.record ⟨0, .add, .twoOperand, some ⟨.indirectAutoincrement, some .r10, .byte, none, 0⟩,
      some ⟨.indexed, some .r7, .byte, some 3, 2⟩, 4, false⟩) := by decide

/-- V69: addc #0, r12. -/
theorem test_step_addc : resultOf [0x0c, 0x63] =
    some (.record ⟨0, .addc, .twoOperand, some ⟨.constant0, some .cg, .word, some 0, 0⟩,
      some ⟨.registerDirect, some .r12, .word, none, 0⟩, 2, false⟩) := by decide

/-- V70: subc 4(r4), r5. -/
theorem test_step_subc : resultOf [0x15, 0x74, 0x04, 0x00] =
    some (.record ⟨0, .subc, .twoOperand, some ⟨.indexed, some .r4, .word, some 4, 2⟩,
      some ⟨.registerDirect, some .r5, .word, none, 0⟩, 4, false⟩) := by decide

/-- V71: sub #1, r15. -/
theorem test_step_sub : resultOf [0x1f, 0x83] =
    some (.record ⟨0, .sub, .twoOperand, some ⟨.constant1, some .cg, .word, some 1, 0⟩,
      some ⟨.registerDirect, some .r15, .word, none, 0⟩, 2, false⟩) := by decide

/-- V72: cmp #8, r9. -/
theorem test_step_cmp : resultOf [0x39, 0x92] =
    some (.record ⟨0, .cmp, .twoOperand, some ⟨.constant8, some .sr, .word, some 8, 0⟩,
      some ⟨.registerDirect, some .r9, .word, none, 0⟩, 2, false⟩) := by decide

/-- V74: dadd @r5, &0x0200. -/
theorem test_step_dadd : resultOf [0xa2, 0xa5, 0x00, 0x02] =
    some (.record ⟨0, .dadd, .twoOperand, some ⟨.indirectRegister, some .r5, .word, none, 0⟩,
      some ⟨.absolute, some .sr, .word, some 512, 2⟩, 4, false⟩) := by decide

/-- V75: bit.b #0x10, &0x0020. -/
theorem test_step_bit : resultOf [0xf2, 0xb0, 0x10, 0x00, 0x20, 0x00] =
    some (.record ⟨0, .bit, .twoOperand, some ⟨.immediate, some .pc, .byte, some 16, 2⟩,
      some ⟨.absolute, some .sr, .byte, some 32, 2⟩, 6, false⟩) := by decide

/-- V120: bic #0x00f0, sr: not bis. -/
theorem test_step_bic : resultOf [0x32, 0xc0, 0xf0, 0x00] =
    some (.record ⟨0, .bic, .twoOperand, some ⟨.immediate, some .pc, .word, some 240, 2⟩,
      some ⟨.registerDirect, some .sr, .word, none, 0⟩, 4, false⟩) := by decide

/-- V79: bis.b #1, &0x0022. -/
theorem test_step_bis : resultOf [0xd2, 0xd3, 0x22, 0x00] =
    some (.record ⟨0, .bis, .twoOperand, some ⟨.constant1, some .cg, .byte, some 1, 0⟩,
      some ⟨.absolute, some .sr, .byte, some 34, 2⟩, 4, false⟩) := by decide

/-- V116: bis #0xfff0, sr: compared on the whole 16-bit value. -/
theorem test_step_bis_not_dint : resultOf [0x32, 0xd0, 0xf0, 0xff] =
    some (.record ⟨0, .bis, .twoOperand, some ⟨.immediate, some .pc, .word, some 65520, 2⟩,
      some ⟨.registerDirect, some .sr, .word, none, 0⟩, 4, false⟩) := by decide

/-- V77: xor.b #-1, r5. -/
theorem test_step_xor : resultOf [0x75, 0xe3] =
    some (.record ⟨0, .xor, .twoOperand, some ⟨.constantNeg1, some .cg, .byte, some (-1), 0⟩,
      some ⟨.registerDirect, some .r5, .byte, none, 0⟩, 2, false⟩) := by decide

/-- V78: and 0x0010(pc), 2(r6): symbolic source, indexed destination. -/
theorem test_step_and : resultOf [0x96, 0xf0, 0x10, 0x00, 0x02, 0x00] =
    some (.record ⟨0, .and, .twoOperand, some ⟨.symbolic, some .pc, .word, some 16, 2⟩,
      some ⟨.indexed, some .r6, .word, some 2, 2⟩, 6, false⟩) := by decide

/-- V93: opcode 1, `IR[11:10] = 3`, selector 0: same record as `05 10`. -/
theorem test_step_rrc_unexamined : resultOf [0x05, 0x1c] =
    some (.record ⟨0, .rrc, .oneOperand,
      some ⟨.registerDirect, some .r5, .word, none, 0⟩, none, 2, false⟩) := by decide

/-- V96: swpb with bit 6 set: width byte reported. -/
theorem test_step_swpb : resultOf [0xc5, 0x10] =
    some (.record ⟨0, .swpb, .oneOperand,
      some ⟨.registerDirect, some .r5, .byte, none, 0⟩, none, 2, false⟩) := by decide

/-- V82: rra.b @r4. -/
theorem test_step_rra : resultOf [0x64, 0x11] =
    some (.record ⟨0, .rra, .oneOperand,
      some ⟨.indirectRegister, some .r4, .byte, none, 0⟩, none, 2, false⟩) := by decide

/-- V83: sxt 2(r8). -/
theorem test_step_sxt : resultOf [0x98, 0x11, 0x02, 0x00] =
    some (.record ⟨0, .sxt, .oneOperand, some ⟨.indexed, some .r8, .word, some 2, 2⟩, none, 4, false⟩) := by decide

/-- V84: push #0x1234. -/
theorem test_step_push : resultOf [0x30, 0x12, 0x34, 0x12] =
    some (.record ⟨0, .push, .oneOperand,
      some ⟨.immediate, some .pc, .word, some 4660, 2⟩, none, 4, false⟩) := by decide

/-- V97: push #1 (source `cg`, raw 1): constant, no extension word. -/
theorem test_step_push_constant : resultOf [0x13, 0x12] =
    some (.record ⟨0, .push, .oneOperand, some ⟨.constant1, some .cg, .word, some 1, 0⟩, none, 2, false⟩) := by decide

/-- V88: call &0x0200. -/
theorem test_step_call : resultOf [0x92, 0x12, 0x00, 0x02] =
    some (.record ⟨0, .call, .oneOperand, some ⟨.absolute, some .sr, .word, some 512, 2⟩, none, 4, false⟩) := by decide

/-- V90: opcode 1 selector 6 with raw mode 1, register 0: reti with a symbolic operand, length 4. -/
theorem test_step_reti : resultOf [0x10, 0x13, 0x34, 0x12] =
    some (.record ⟨0, .reti, .oneOperand,
      some ⟨.symbolic, some .pc, .word, some 4660, 2⟩, none, 4, false⟩) := by decide

/-- V92: opcode 1, `IR[11:10] = 3`, selector 6: reti. -/
theorem test_step_reti_unexamined : resultOf [0x7f, 0x1f] =
    some (.record ⟨0, .reti, .oneOperand,
      some ⟨.indirectAutoincrement, some .r15, .byte, none, 0⟩, none, 2, false⟩) := by decide

/-- V32: jnz, raw offset 0x200. -/
theorem test_step_jnz : resultOf [0x00, 0x22] =
    some (.record ⟨0, .jnz, .branchOnly,
      some ⟨.pcRelativeOffset, none, .word, some (-512), 0⟩, none, 2, false⟩) := by decide

/-- V22: jz +0. -/
theorem test_step_jz : resultOf [0x00, 0x24] =
    some (.record ⟨0, .jz, .branchOnly, some ⟨.pcRelativeOffset, none, .word, some 0, 0⟩, none, 2, false⟩) := by decide

/-- V39: jnc, raw offset 0x040: bit 6 set, width still word. -/
theorem test_step_jnc : resultOf [0x40, 0x28] =
    some (.record ⟨0, .jnc, .branchOnly,
      some ⟨.pcRelativeOffset, none, .word, some 64, 0⟩, none, 2, false⟩) := by decide

/-- V37: jc, raw offset 0x200. -/
theorem test_step_jc : resultOf [0x00, 0x2e] =
    some (.record ⟨0, .jc, .branchOnly,
      some ⟨.pcRelativeOffset, none, .word, some (-512), 0⟩, none, 2, false⟩) := by decide

/-- V38: jn, raw offset 0x1ff. -/
theorem test_step_jn : resultOf [0xff, 0x31] =
    some (.record ⟨0, .jn, .branchOnly,
      some ⟨.pcRelativeOffset, none, .word, some 511, 0⟩, none, 2, false⟩) := by decide

/-- V26: jge +0. -/
theorem test_step_jge : resultOf [0x00, 0x34] =
    some (.record ⟨0, .jge, .branchOnly,
      some ⟨.pcRelativeOffset, none, .word, some 0, 0⟩, none, 2, false⟩) := by decide

/-- V27: jl +0. -/
theorem test_step_jl : resultOf [0x00, 0x38] =
    some (.record ⟨0, .jl, .branchOnly, some ⟨.pcRelativeOffset, none, .word, some 0, 0⟩, none, 2, false⟩) := by decide

/-- V35: jmp, raw offset 0x3ff (jump to self). -/
theorem test_step_jmp : resultOf [0xff, 0x3f] =
    some (.record ⟨0, .jmp, .branchOnly,
      some ⟨.pcRelativeOffset, none, .word, some (-1), 0⟩, none, 2, false⟩) := by decide

/-- V107: mov #0x4500, 2(pc), shown as br, length 6; destination indexed with register pc. -/
theorem test_step_br : resultOf [0xb0, 0x40, 0x00, 0x45, 0x02, 0x00] =
    some (.record ⟨0, .br, .twoOperand, some ⟨.immediate, some .pc, .word, some 17664, 2⟩,
      some ⟨.indexed, some .pc, .word, some 2, 2⟩, 6, true⟩) := by decide

/-- V102: mov.b @sp+, pc: differs from the return word in bit 6; br, not ret. -/
theorem test_step_br_not_ret : resultOf [0x70, 0x41] =
    some (.record ⟨0, .br, .twoOperand, some ⟨.indirectAutoincrement, some .sp, .byte, none, 0⟩,
      some ⟨.registerDirect, some .pc, .byte, none, 0⟩, 2, true⟩) := by decide

/-- V112: bis #0x00f0, &0x0120: destination register `sr`, mode absolute; length 6. -/
theorem test_step_dint : resultOf [0xb2, 0xd0, 0xf0, 0x00, 0x20, 0x01] =
    some (.record ⟨0, .dint, .none, none, none, 6, true⟩) := by decide

/-- V113: bis 0x00f0(r5), sr: source indexed with extension word 0xf0. -/
theorem test_step_dint_indexed : resultOf [0x12, 0xd5, 0xf0, 0x00] =
    some (.record ⟨0, .dint, .none, none, none, 4, true⟩) := by decide

/-- V30: opcode 0, all other bits 1. -/
theorem test_step_invalid_opcode_0 : resultOf [0xff, 0x0f] = some (.failure .invalidOpcode) := by decide

/-- V133: opcode 1, selector 7, with more bytes: InvalidOpcode, not Truncated and not length 4. -/
theorem test_step_invalid_opcode_1_selector_7 : resultOf [0x80, 0x13, 0x34, 0x12] =
    some (.failure .invalidOpcode) := by decide

/-- V121: no bytes. -/
theorem test_step_truncated_empty : resultOf [] = some (.failure .truncatedInput) := by decide

/-- V122: one byte (would be opcode 0 if a second byte 00 followed). -/
theorem test_step_truncated_one_byte : resultOf [0x00] = some (.failure .truncatedInput) := by decide

/-- V127: the same with 5 of 6 bytes. -/
theorem test_step_truncated_five_of_six : resultOf [0xb2, 0x40, 0x80, 0x5a, 0x20] =
    some (.failure .truncatedInput) := by decide

/-- V129: bis #imm, sr with 3 of 4 bytes: no dint without the value. -/
theorem test_step_truncated_dint : resultOf [0x32, 0xd0, 0xf0] = some (.failure .truncatedInput) := by decide

/-- V40: mov r5, 0x1234(cg). -/
theorem test_step_destination_cg_indexed : resultOf [0x83, 0x45, 0x34, 0x12] =
    some (.record ⟨0, .mov, .twoOperand, some ⟨.registerDirect, some .r5, .word, none, 0⟩,
      some ⟨.indexed, some .cg, .word, some 4660, 2⟩, 4, false⟩) := by decide

/-! ### The host's probe -/

/-- V33 as the table numbers its bits: `jnz` with raw offset 0x201. -/
theorem test_table_word : decodeTableWord 16 0x2201 = some (.jnz 0x201) := by decide

/-- V73 as the table numbers its bits: the first word is the low 16 bits. -/
theorem test_table_three_words :
    decodeTableWord 48 0x567812344592 =
      some (.mov .word ⟨.r5, .indexed, some 0x1234⟩ ⟨.sr, .indexed, some 0x5678⟩) := by decide

/-- A word placed where the block fetches runs next. -/
theorem test_fetch_word :
    (match step (State.reset.withFetchWord 16 0x831f) with
      | .next t => t.result.map statusCode
      | _ => none) = some 0 := by decide

/-- P6: at an odd address and at a negative one the record differs in its address only. -/
theorem test_address : Answers (State.reset.present [0xfe, 0x23] (-1))
    (.record ⟨-1, .jnz, .branchOnly, some ⟨.pcRelativeOffset, none, .word, some (-2), 0⟩, none, 2, false⟩) := rfl

/-! ### Witnesses: for every statement with hypotheses, inputs that meet them all -/

/-- A state on which nothing has run, with the bytes presented at address 0. -/
def held (bytes : List Byte) : State := State.reset.present bytes 0

/-- The record of V71, `sub #1, r15`. -/
def subRecord : Record :=
  ⟨0, .sub, .twoOperand, some ⟨.constant1, some .cg, .word, some 1, 0⟩, some ⟨.registerDirect, some .r15, .word, none, 0⟩,
    2, false⟩

/-- The record of V73, `mov 0x1234(r5), &0x5678`. -/
def movRecord : Record :=
  ⟨0, .mov, .twoOperand, some ⟨.indexed, some .r5, .word, some 0x1234, 2⟩,
    some ⟨.absolute, some .sr, .word, some 0x5678, 2⟩, 6, false⟩

/-- The record of V45, `mov r5, 0x1234(r5)`. -/
def movToIndexed : Record :=
  ⟨0, .mov, .twoOperand, some ⟨.registerDirect, some .r5, .word, none, 0⟩,
    some ⟨.indexed, some .r5, .word, some 0x1234, 2⟩, 4, false⟩

theorem answers_sub : Answers (held [0x1f, 0x83]) (.record subRecord) := rfl
theorem answers_mov : Answers (held [0x92, 0x45, 0x34, 0x12, 0x78, 0x56]) (.record movRecord) := rfl
theorem answers_mov_to_indexed : Answers (held [0x85, 0x45, 0x34, 0x12]) (.record movToIndexed) := rfl

theorem held_inv : StateInv (held [0x1f, 0x83]) :=
  ⟨by decide, by decide, .inl ⟨rfl, rfl⟩, fun c h => by cases h⟩

/-- A state with a call evaluated on its inputs: the outputs of V71 stand. -/
def evaluated : State := { held [0x1f, 0x83] with ir := some 0x831f, result := some (.record subRecord) }

theorem evaluated_inv : StateInv evaluated :=
  ⟨by decide, by decide, .inr ⟨rfl, rfl⟩, fun c h => by cases h; decide⟩

/-- New inputs after a call: nothing of it stands. -/
theorem test_present_after_call : evaluated.present [0x00, 0x20] 4 = State.reset.present [0x00, 0x20] 4 := by decide

/-- A word placed after a call: nothing of the call stands. -/
theorem test_fetch_word_after_call :
    (evaluated.withFetchWord 16 0x2000).ir = none ∧ (evaluated.withFetchWord 16 0x2000).result = none := by decide

theorem witness_DecodeOfEncodeIsIdentity :
    ∃ i : Instr, i.wf = true ∧ (encodeBytes i).length = 6 :=
  ⟨.mov .word ⟨.r5, .indexed, some 0x1234⟩ ⟨.sr, .indexed, some 0x5678⟩, by decide, by decide⟩

theorem witness_EncodeOfDecodeIsIdentity :
    decode [0x92, 0x45, 0x34, 0x12, 0x78, 0x56, 0xff] =
      .ok (.mov .word ⟨.r5, .indexed, some 0x1234⟩ ⟨.sr, .indexed, some 0x5678⟩, [0xff]) := rfl

/-- The three rows whose words the statement singles out, and a plain one. -/
theorem witness_DecoderAgreesWithTheOpcodeTable :
    decode [0x30, 0x41] = .ok (.ret, []) ∧
    decode [0x00, 0x45] = .ok (.br .word ⟨.r5, .registerDirect, none⟩ .registerDirect none, []) ∧
    decode [0x32, 0xd0, 0xf0, 0x00] = .ok (.dint .word .pc .indirectAutoincrement .registerDirect none, []) ∧
    decode [0x31, 0x41] =
      .ok (.mov .word ⟨.sp, .indirectAutoincrement, none⟩ ⟨.sp, .registerDirect, none⟩, []) := ⟨rfl, rfl, rfl, rfl⟩

theorem witness_StepRunsTheDecodedInstruction :
    decode (held [0x00, 0x20]).window = .ok (.jnz 0, []) ∧
    decode (held [0x31, 0x40, 0x80]).window = .error .missingExtensionWord ∧
    decode (held []).window = .error .noInstructionWord := ⟨rfl, rfl, rfl⟩

theorem witness_StepKeepsTheInvariant :
    StateInv (held [0x1f, 0x83]) ∧ step (held [0x1f, 0x83]) = .next evaluated ∧
    StateInv evaluated ∧ step evaluated = .next evaluated := ⟨held_inv, rfl, evaluated_inv, rfl⟩

/-- Before a call and after one. -/
theorem witness_CallerKeepsTheInvariant : StateInv (held [0x1f, 0x83]) ∧ StateInv evaluated := ⟨held_inv, evaluated_inv⟩

/-- The outputs that stand after a step. -/
theorem witness_NewInputsHoldNoOutput : step (held [0x1f, 0x83]) = .next evaluated := rfl

theorem witness_ReturnedRecordsAreWellFormed : ∃ s r, Answers s (.record r) := ⟨_, _, answers_mov⟩

/-- Sources and destinations with and without an extension word, for the two-operand statements and `mov`, `bis`. -/
theorem witness_TwoOperandRecords :
    SrcField.ok ⟨.r5, .indexed, some 0x1234⟩ = true ∧ SrcField.ok (direct .pc) = true ∧
    DstField.ok ⟨.sr, .indexed, some 0x5678⟩ = true ∧ DstField.ok (into .pc) = true := by decide

/-- The rewritten form, and one that is not. -/
theorem witness_MovRecords : SrcField.ok (direct .r5) = true ∧ DstField.ok (into .pc) = true ∧ DstField.ok (into .r5) = true := by
  decide

/-- The rewritten form, and one that is not. -/
theorem witness_BisRecords :
    SrcField.ok ⟨.pc, .indirectAutoincrement, some 0x00f0⟩ = true ∧
    SrcField.ok ⟨.pc, .indirectAutoincrement, some 0x00f1⟩ = true ∧ DstField.ok (into .sr) = true := by decide

theorem witness_OneOperandRecords :
    SrcField.ok ⟨.sr, .indexed, some 0x0200⟩ = true ∧ SrcField.ok (direct .r5) = true := by decide

theorem witness_BrRecords :
    SrcField.ok (direct .r5) = true ∧ DstField.ok ⟨.pc, .registerDirect, none⟩ = true ∧
    DstField.ok ⟨.pc, .indexed, some 2⟩ = true := by decide

theorem witness_DintRecords :
    Instr.operandsOk (.dint .word .pc .indirectAutoincrement .registerDirect none) = true ∧
    Instr.operandsOk (.dint .byte .sr .indexed .indexed (some 0x0120)) = true := by decide

/-- A source and a destination that take a word: without it, the hypotheses of every clause hold. -/
theorem witness_MissingExtensionWordIsTruncated :
    extraOf (reinterpretSource .pc .indirectAutoincrement) = 2 ∧ extraOf (reinterpretDestination .sr .indexed) = 2 := by
  decide

theorem witness_InstructionsChangeOnlyTheResult :
    ∃ t, exec (.jnz 0x3fe) (held [0xfe, 0x23]) = .next t ∧ t.result ≠ none := ⟨_, rfl, by decide⟩

/-- The three lengths, each with exactly that many bytes. -/
theorem witness_WholeInstructionsGiveRecords :
    lengthTable (held [0x1f, 0x83]).mem.instructionWord = some 2 ∧
    lengthTable (held [0x85, 0x45, 0x34, 0x12]).mem.instructionWord = some 4 ∧
    lengthTable (held [0x92, 0x45, 0x34, 0x12, 0x78, 0x56]).mem.instructionWord = some 6 ∧
    2 ≤ (held [0x1f, 0x83]).n ∧ 4 ≤ (held [0x85, 0x45, 0x34, 0x12]).n ∧
    6 ≤ (held [0x92, 0x45, 0x34, 0x12, 0x78, 0x56]).n := by decide

/-- Two states with one word and records of both, and a `dint` record (V112). -/
theorem witness_LengthIsTwoPlusExtraBytes :
    Answers (held [0xb2, 0xd0, 0xf0, 0x00, 0x20, 0x01]) (.record (bareRecord 0 .dint 6)) ∧
    ∃ q, Answers (held [0x85, 0x45, 0x34, 0x12]) (.record movToIndexed) ∧
      (held [0x85, 0x45, 0xff, 0xff]).mem.instructionWord = (held [0x85, 0x45, 0x34, 0x12]).mem.instructionWord ∧
      Answers (held [0x85, 0x45, 0xff, 0xff]) (.record q) := ⟨rfl, _, rfl, by decide, rfl⟩

theorem witness_FewerThanTwoBytesIsTruncated : (held []).n < 2 ∧ (held [0x30]).n < 2 := by decide

/-- The least and the greatest word of opcode nibble 0. -/
theorem witness_OpcodeNibbleZeroIsInvalid :
    2 ≤ (held [0x00, 0x00]).n ∧ 2 ≤ (held [0xff, 0x0f]).n ∧ (held [0x00, 0x00]).mem.instructionWord.toNat < 0x1000 ∧
    (held [0xff, 0x0f]).mem.instructionWord.toNat = 0x0fff := by decide

/-- A word of each clause: selector 7, selector 6 and selector 0 of opcode 1, opcodes 2 and 3. -/
theorem witness_OnlySelectorSevenIsUnmapped :
    (held [0xff, 0x1f]).mem.instructionWord &&& 0xF380#16 = 0x1380#16 ∧
    slice (held [0x7f, 0x1f]).mem.instructionWord 12 4 = 1#4 ∧
    (held [0x7f, 0x1f]).mem.instructionWord &&& 0xF380#16 ≠ 0x1380#16 ∧
    (held [0x05, 0x10]).mem.instructionWord &&& 0xF380#16 ≠ 0x1380#16 ∧
    slice (held [0x00, 0x20]).mem.instructionWord 12 4 = 2#4 ∧
    slice (held [0xff, 0x3f]).mem.instructionWord 12 4 = 3#4 ∧
    2 ≤ (held [0xff, 0x1f]).n ∧ 2 ≤ (held [0x7f, 0x1f]).n ∧ 2 ≤ (held [0xff, 0x3f]).n := by decide

/-- A two-operand record's source and destination, and a one-operand record with bit 6 set (V96). -/
theorem witness_WidthIsBitSix :
    Answers (held [0x1f, 0x83]) (.record subRecord) ∧ subRecord.cls = .twoOperand ∧
    (∃ o, subRecord.src = some o) ∧ (∃ o, subRecord.dst = some o) ∧
    Answers (held [0xc5, 0x10])
      (.record ⟨0, .swpb, .oneOperand, some ⟨.registerDirect, some .r5, .byte, none, 0⟩, none, 2, false⟩) :=
  ⟨rfl, rfl, ⟨_, rfl⟩, ⟨_, rfl⟩, rfl⟩

/-- A source word with a destination word after it, and a destination word at offset 2. -/
theorem witness_ExtensionWordsAreReadInOrder :
    Answers (held [0x92, 0x45, 0x34, 0x12, 0x78, 0x56]) (.record movRecord) ∧ extraBytes movRecord.src = 2 ∧
    Answers (held [0x85, 0x45, 0x34, 0x12]) (.record movToIndexed) ∧ extraBytes movToIndexed.src = 0 :=
  ⟨rfl, rfl, rfl, rfl⟩

/-- The source mode of the record of a word, for the six constants (V56 to V61). -/
theorem witness_ConstantOperandsCarryTheirLiteral :
    [0x06, 0x16, 0x26, 0x36].map (fun b => (resultOf [b, 0x43]).bind fun c =>
      match c with
      | .record r => r.src.map Operand.mode
      | .failure _ => none) = [some .constant0, some .constant1, some .constant2, some .constantNeg1] ∧
    [0x26, 0x36].map (fun b => (resultOf [b, 0x42]).bind fun c =>
      match c with
      | .record r => r.src.map Operand.mode
      | .failure _ => none) = [some .constant4, some .constant8] := by decide

/-- The least offset (V32) and the greatest (V34). -/
theorem witness_BranchOffsetIsSignExtended :
    (∃ r, Answers (held [0x00, 0x22]) (.record r) ∧ r.cls = .branchOnly ∧ r.src.bind Operand.value = some (-512)) ∧
    (∃ r, Answers (held [0xff, 0x3d]) (.record r) ∧ r.cls = .branchOnly ∧ r.src.bind Operand.value = some 511) :=
  ⟨⟨_, rfl, rfl, by decide⟩, ⟨_, rfl, rfl, by decide⟩⟩

/-- A pair outside the table: `sp` indexed. -/
theorem witness_SourceReinterpretation : (Reg.sp, RawSrcMode.indexed) ∉
    [(Reg.pc, RawSrcMode.indexed), (.pc, .indirectAutoincrement), (.cg, .registerDirect), (.cg, .indexed),
      (.cg, .indirectRegister), (.cg, .indirectAutoincrement), (.sr, .indexed), (.sr, .indirectRegister),
      (.sr, .indirectAutoincrement)] := by decide

theorem witness_NoOtherRewrites :
    ¬(subRecord.mnemonic = .mov ∧ subRecord.dst.bind Operand.reg = some .pc) ∧
    ¬(subRecord.mnemonic = .bis ∧ subRecord.dst.bind Operand.reg = some .sr ∧
      subRecord.src.bind Operand.value = some 0xF0) := by decide

theorem witness_ReturnWordIsRet :
    2 ≤ (held [0x30, 0x41]).n ∧ (held [0x30, 0x41]).mem.instructionWord = 0x4130#16 := by decide

/-- Lengths 2 and 6 of a `mov` into `pc` (V104, V107). -/
theorem witness_MovIntoPcIsBr :
    (held [0x00, 0x45]).mem.instructionWord &&& 0xF00F#16 = 0x4000#16 ∧
    (held [0x00, 0x45]).mem.instructionWord ≠ 0x4130#16 ∧
    lengthTable (held [0x00, 0x45]).mem.instructionWord = some 2 ∧
    2 ≤ (held [0x00, 0x45]).n ∧
    (held [0xb0, 0x40, 0x00, 0x45, 0x02, 0x00]).mem.instructionWord &&& 0xF00F#16 = 0x4000#16 ∧
    (held [0xb0, 0x40, 0x00, 0x45, 0x02, 0x00]).mem.instructionWord ≠ 0x4130#16 ∧
    lengthTable (held [0xb0, 0x40, 0x00, 0x45, 0x02, 0x00]).mem.instructionWord = some 6 ∧
    6 ≤ (held [0xb0, 0x40, 0x00, 0x45, 0x02, 0x00]).n := by decide

/-- Both clauses: V110 with length 4 and V112 with length 6 hold the literal, V115 does not, V117 has no word. -/
theorem witness_BisOfF0ToSrIsDint :
    (held [0x32, 0xd0, 0xf0, 0x00]).mem.instructionWord &&& 0xF00F#16 = 0xD002#16 ∧
    (held [0x32, 0xd2]).mem.instructionWord &&& 0xF00F#16 = 0xD002#16 ∧
    lengthTable (held [0x32, 0xd0, 0xf0, 0x00]).mem.instructionWord = some 4 ∧ 4 ≤ (held [0x32, 0xd0, 0xf0, 0x00]).n ∧
    lengthTable (held [0x32, 0xd2]).mem.instructionWord = some 2 ∧ 2 ≤ (held [0x32, 0xd2]).n ∧
    lengthTable (held [0xb2, 0xd0, 0xf0, 0x00, 0x20, 0x01]).mem.instructionWord = some 6 ∧
    lengthTableSource (slice (held [0x32, 0xd0, 0xf0, 0x00]).mem.instructionWord 4 2)
      (slice (held [0x32, 0xd0, 0xf0, 0x00]).mem.instructionWord 8 4) = 2 ∧
    (held [0x32, 0xd0, 0xf0, 0x00]).mem.read2 2 = 0x00F0#16 ∧
    (held [0x32, 0xd0, 0xf1, 0x00]).mem.read2 2 ≠ 0x00F0#16 ∧
    lengthTableSource (slice (held [0x32, 0xd2]).mem.instructionWord 4 2)
      (slice (held [0x32, 0xd2]).mem.instructionWord 8 4) ≠ 2 := by decide

theorem witness_ExactlyThreeMnemonicsAreEmulated :
    Answers (held [0x30, 0x41]) (.record (bareRecord 0 .ret 2)) ∧ Answers (held [0x1f, 0x83]) (.record subRecord) :=
  ⟨rfl, rfl⟩

theorem witness_BufferIsNeverWritten : ∃ t, step (held [0x1f, 0x83]) = .next t ∧ t ≠ held [0x1f, 0x83] :=
  ⟨_, rfl, by decide⟩

/-- The inputs of V71 after another call, and before any. -/
theorem witness_EarlierCallsHaveNoEffect :
    ∃ t : State, t.mem = (held [0x1f, 0x83]).mem ∧ t.n = (held [0x1f, 0x83]).n ∧
      t.address = (held [0x1f, 0x83]).address ∧ t.result = some (.failure .invalidOpcode) :=
  ⟨{ held [0x1f, 0x83] with result := some (.failure .invalidOpcode) }, rfl, rfl, rfl, rfl⟩

theorem witness_AddressIsOnlyCopied :
    Answers (held [0x1f, 0x83]) (.record subRecord) ∧ Answers (held [0x00, 0x00]) (.failure .invalidOpcode) ∧
    Answers (held [0x00]) (.failure .truncatedInput) := ⟨rfl, rfl, rfl⟩

/-- Surplus bytes (V45 with two more), and a buffer one byte short. -/
theorem witness_SurplusBytesAreNeverRead :
    Answers (held [0x85, 0x45, 0x34, 0x12]) (.record movToIndexed) ∧ movToIndexed.length = 4 ∧
    (held [0x85, 0x45, 0x34, 0x12, 0xff, 0xff]).address = (held [0x85, 0x45, 0x34, 0x12]).address ∧
    4 ≤ (held [0x85, 0x45, 0x34, 0x12, 0xff, 0xff]).n ∧
    (∀ a, a < 4 → (held [0x85, 0x45, 0x34, 0x12, 0xff, 0xff]).mem.read a = (held [0x85, 0x45, 0x34, 0x12]).mem.read a) ∧
    (held [0x85, 0x45, 0x34]).address = (held [0x85, 0x45, 0x34, 0x12]).address ∧
    2 ≤ (held [0x85, 0x45, 0x34]).n ∧ (held [0x85, 0x45, 0x34]).n < 4 ∧
    (∀ a, a < 3 → (held [0x85, 0x45, 0x34]).mem.read a = (held [0x85, 0x45, 0x34, 0x12]).mem.read a) :=
  ⟨rfl, rfl, rfl, by decide, by decide, rfl, by decide, by decide, by decide⟩

/-- V80 and V93: words that differ in bits 11 and 10 only. -/
theorem witness_UnexaminedBitsChangeNothing :
    (held [0x05, 0x1c]).n = (held [0x05, 0x10]).n ∧ (held [0x05, 0x1c]).address = (held [0x05, 0x10]).address ∧
    2 ≤ (held [0x05, 0x10]).n ∧
    slice (held [0x05, 0x10]).mem.instructionWord 12 4 = 1#4 ∧ slice (held [0x05, 0x1c]).mem.instructionWord 12 4 = 1#4 ∧
    slice (held [0x05, 0x1c]).mem.instructionWord 0 10 = slice (held [0x05, 0x10]).mem.instructionWord 0 10 ∧
    (held [0x05, 0x1c]).mem.instructionWord ≠ (held [0x05, 0x10]).mem.instructionWord ∧
    (∀ a, 2 ≤ a → (held [0x05, 0x1c]).mem.read a = (held [0x05, 0x10]).mem.read a) ∧
    Answers (held [0x05, 0x10])
      (.record ⟨0, .rrc, .oneOperand, some ⟨.registerDirect, some .r5, .word, none, 0⟩, none, 2, false⟩) := by
  refine ⟨rfl, rfl, by decide, by decide, by decide, by decide, by decide, fun a ha => ?_, rfl⟩
  obtain ⟨b, rfl⟩ := Nat.exists_eq_add_of_le ha
  simp [held, State.present, Memory.writeBytes, Memory.write, Memory.read, Memory.background,
    show ¬ (1 = 2 + b) by omega, show ¬ (0 = 2 + b) by omega]

theorem witness_PresentedInputsAreSeen : (6 : Nat) < [(0 : Byte), 1, 2, 3, 4, 5, 6].length := by decide

theorem witness_FetchWordRunsNext :
    State.reset.mem.wf = true ∧ (held [0x1f, 0x83]).mem.wf = true ∧
    decodeTableWord 16 0x831f = some (.sub .word ⟨.cg, .indexed, none⟩ ⟨.r15, .registerDirect, none⟩) := by decide

/-- The three status numbers. -/
theorem witness_StatusOutputNumbersTheOutcome :
    ∃ t u v, step (held [0x1f, 0x83]) = .next t ∧ t.status = some 0 ∧ step (held [0x00]) = .next u ∧
      u.status = some 1 ∧ step (held [0x00, 0x00]) = .next v ∧ v.status = some 2 :=
  ⟨_, _, _, rfl, rfl, rfl, rfl, rfl, rfl⟩

end Sys2Proof.Tests
end

section
/-! PROOFS. The state of the block (10_state.md R21, R24): a call has exactly one outcome, and it is decided by the inputs
alone. -/

namespace Sys2Proof

open Sys2Proof.Machine

/-- A call ends with an outcome exactly if its step latches IR and sets that outcome as the result. -/
theorem answers_iff_step (s : State) (c : CallResult) :
    Answers s c ↔ step s = .next (s.latchIr.setResult c) := Iff.rfl

/-- Every call ends with an outcome: no step faults or refuses. -/
theorem exists_answers (s : State) : ∃ c, Answers s c := by
  obtain ⟨c, hc⟩ := step_onlyResult s.window
  exact ⟨c.withAddress s.address, (answers_iff_step s _).2 (hc s rfl)⟩

/-- The next state holds the outcome as its result, so a call has at most one. -/
theorem Answers.unique {s : State} {c d : CallResult} (hc : Answers s c) (hd : Answers s d) : c = d := by
  rw [answers_iff_step] at hc hd
  have hstate : s.latchIr.setResult c = s.latchIr.setResult d := Host.Outcome.next.inj (hc.symm.trans hd)
  have hresult : some c = some d := congrArg State.result hstate
  exact Option.some.inj hresult

/-- An outcome is a record or one of the two failures; there is no third tag (60_exceptions.md R150). -/
theorem callResult_is_record_or_failure (c : CallResult) :
    (∃ r, c = .record r) ∨ c = .failure .truncatedInput ∨ c = .failure .invalidOpcode := by
  cases c with
  | record r => exact .inl ⟨r, rfl⟩
  | failure f =>
    cases f with
    | truncatedInput => exact .inr (.inl rfl)
    | invalidOpcode => exact .inr (.inr rfl)

/-- Settles O8: the step answers an outcome, it determines that outcome, and an outcome has one of three forms. -/
theorem everyCallReturnsOneOutcome : Obligations.EveryCallReturnsOneOutcome := by
  unfold Obligations.EveryCallReturnsOneOutcome
  intro s
  obtain ⟨c, hc⟩ := exists_answers s
  exact ⟨c, hc, fun _ hc' => hc'.unique hc, callResult_is_record_or_failure c⟩

/-- The fetch window is the same for the same bytes and byte count. -/
theorem window_eq_of_inputs {s t : State} (hmem : t.mem = s.mem) (hn : t.n = s.n) : t.window = s.window :=
  State.window_congr t s (by rw [hn]) (fun a _ => by rw [hmem])

/-- What a call leaves is built from the inputs and the outcome: the IR and the result that stood before are both
overwritten. -/
theorem latchIr_setResult_eq_of_inputs {s t : State} (hmem : t.mem = s.mem) (hn : t.n = s.n)
    (haddress : t.address = s.address) (c : CallResult) : t.latchIr.setResult c = s.latchIr.setResult c := by
  simp only [State.setResult, State.latchIr, hmem, hn, haddress]

/-- Settles O46: equal inputs give one window, so one outcome (`step_congr`), and the step overwrites all the rest. -/
theorem earlierCallsHaveNoEffect : Obligations.EarlierCallsHaveNoEffect := by
  unfold Obligations.EarlierCallsHaveNoEffect
  intro s t hmem hn haddress
  obtain ⟨c, ht, hs⟩ := step_congr t s (window_eq_of_inputs hmem hn)
  rw [ht, hs, haddress, latchIr_setResult_eq_of_inputs hmem hn haddress]

end Sys2Proof
end

section
/-! PROOFS. The buffer (20_memory.md R35): a call leaves its inputs as they are, so a second call reads the same inputs. -/

namespace Sys2Proof

open Sys2Proof.Machine

/-- The one form a next state has: the state before, with IR latched and a result set. -/
theorem step_eq_next {s t : State} (h : step s = .next t) : ∃ c, t = s.latchIr.setResult c := by
  obtain ⟨c, hc⟩ := exists_answers s
  rw [answers_iff_step, h] at hc
  exact ⟨c, Host.Outcome.next.inj hc⟩

/-- The inputs are no part of what a call writes. -/
theorem inputs_eq_of_step {s t : State} (h : step s = .next t) :
    t.mem = s.mem ∧ t.n = s.n ∧ t.address = s.address := by
  obtain ⟨c, rfl⟩ := step_eq_next h
  simp

/-- Settles O45: the step keeps the inputs, and a second call on the inputs it kept steps as the first one did
(`earlierCallsHaveNoEffect`). -/
theorem bufferIsNeverWritten : Obligations.BufferIsNeverWritten := by
  unfold Obligations.BufferIsNeverWritten
  intro s t h
  obtain ⟨hmem, hn, haddress⟩ := inputs_eq_of_step h
  have hread : ∀ a, t.mem.read a = s.mem.read a := fun a => by rw [hmem]
  have hagain : step t = .next t := (earlierCallsHaveNoEffect s t hmem hn haddress).trans h
  exact ⟨hread, hmem, hn, haddress, hagain⟩

end Sys2Proof
end

section
/-! PROOFS. What a call answers, by the class of its word: the decoder picks the format and the mnemonic that `classify`
names, and the meaning it runs is that family's template (30_encoding.md R49 to R52, 40_decode_pipeline.md R70, R74). -/

namespace Sys2Proof

open Sys2Proof.Machine

/-- A `mov` word runs the two-operand template under either of its rows. -/
theorem exec_movRow (w : Width) (src : SrcField) (dst : DstField) (s : State) :
    exec (movRow w src dst) s = twoOperand .mov w src dst s := by
  obtain ⟨reg, mode, ext⟩ := dst
  unfold movRow
  split
  · next hreg => subst hreg; rfl
  · rfl

/-- A `bis` word runs the two-operand template under either of its rows. -/
theorem exec_bisRow (w : Width) (src : SrcField) (dst : DstField) (s : State) :
    exec (bisRow w src dst) s = twoOperand .bis w src dst s := by
  obtain ⟨sreg, smode, sext⟩ := src
  obtain ⟨dreg, dmode, dext⟩ := dst
  unfold bisRow
  split
  · next hform => obtain ⟨rfl, rfl⟩ := hform; rfl
  · rfl

/-- How the decoder reads a word of a given class, and what the instruction it reads does. -/
inductive ReadsAs (ir : Word) (bytes : List Byte) : Option (Mnemonic × InstrClass) → Prop
  | invalid (i : Instr) : decodeByNibble ir bytes = .ok (i, bytes) →
      (∀ s, exec i s = State.raise .invalidOpcode s) → ReadsAs ir bytes none
  | one (m : Mnemonic) (row : BitVec 2 → Width → SrcField → Instr) :
      decodeByNibble ir bytes = decodeOne ir bytes row →
      (∀ u w src s, exec (row u w src) s = oneOperand m w src s) → ReadsAs ir bytes (some (m, .oneOperand))
  | branch (m : Mnemonic) (i : Instr) : decodeByNibble ir bytes = .ok (i, bytes) →
      (∀ s, exec i s = branchOnly m (slice ir 0 10) s) → ReadsAs ir bytes (some (m, .branchOnly))
  | two (m : Mnemonic) (row : Width → SrcField → DstField → Instr) :
      decodeByNibble ir bytes = decodeTwo ir bytes row →
      (∀ w src dst s, exec (row w src dst) s = twoOperand m w src dst s) → ReadsAs ir bytes (some (m, .twoOperand))

section Opcodes

variable (ir : Word) (bytes : List Byte)

/-- Opcode nibble 1: a mnemonic for each selector but 7. -/
theorem readsAs_opcode1 (h : slice ir 12 4 = 1#4) :
    ReadsAs ir bytes (classifyFields 1#4 (slice ir 7 3) (slice ir 10 2)) := by
  have hdecode : decodeByNibble ir bytes = decodeOpcode1 ir bytes := by rw [decodeByNibble, h]; rfl
  rw [decodeOpcode1] at hdecode
  generalize slice ir 7 3 = sel at hdecode ⊢
  match sel with
  | 0#3 => exact .one .rrc .rrc hdecode fun _ _ _ _ => rfl
  | 1#3 => exact .one .swpb .swpb hdecode fun _ _ _ _ => rfl
  | 2#3 => exact .one .rra .rra hdecode fun _ _ _ _ => rfl
  | 3#3 => exact .one .sxt .sxt hdecode fun _ _ _ _ => rfl
  | 4#3 => exact .one .push .push hdecode fun _ _ _ _ => rfl
  | 5#3 => exact .one .call .call hdecode fun _ _ _ _ => rfl
  | 6#3 => exact .one .reti .reti hdecode fun _ _ _ _ => rfl
  | 7#3 => exact .invalid _ hdecode fun _ => rfl

/-- Opcode nibble 2: a mnemonic for each selector. -/
theorem readsAs_opcode2 (h : slice ir 12 4 = 2#4) :
    ReadsAs ir bytes (classifyFields 2#4 (slice ir 7 3) (slice ir 10 2)) := by
  have hdecode : decodeByNibble ir bytes = .ok (branchOfOpcode2 ir, bytes) := by rw [decodeByNibble, h]; rfl
  rw [branchOfOpcode2] at hdecode
  generalize slice ir 10 2 = sel at hdecode ⊢
  match sel with
  | 0#2 => exact .branch .jnz _ hdecode fun _ => rfl
  | 1#2 => exact .branch .jz _ hdecode fun _ => rfl
  | 2#2 => exact .branch .jnc _ hdecode fun _ => rfl
  | 3#2 => exact .branch .jc _ hdecode fun _ => rfl

/-- Opcode nibble 3: a mnemonic for each selector. -/
theorem readsAs_opcode3 (h : slice ir 12 4 = 3#4) :
    ReadsAs ir bytes (classifyFields 3#4 (slice ir 7 3) (slice ir 10 2)) := by
  have hdecode : decodeByNibble ir bytes = .ok (branchOfOpcode3 ir, bytes) := by rw [decodeByNibble, h]; rfl
  rw [branchOfOpcode3] at hdecode
  generalize slice ir 10 2 = sel at hdecode ⊢
  match sel with
  | 0#2 => exact .branch .jn _ hdecode fun _ => rfl
  | 1#2 => exact .branch .jge _ hdecode fun _ => rfl
  | 2#2 => exact .branch .jl _ hdecode fun _ => rfl
  | 3#2 => exact .branch .jmp _ hdecode fun _ => rfl

/-- Every word is read as its class says (30_encoding.md R49, R50). -/
theorem readsAs_classify : ReadsAs ir bytes (classify ir) := by
  have hdecode := decodeByNibble.eq_1 ir bytes
  rw [classify]
  generalize hopcode : slice ir 12 4 = k at hdecode ⊢
  match k with
  | 1#4 => exact readsAs_opcode1 ir bytes hopcode
  | 2#4 => exact readsAs_opcode2 ir bytes hopcode
  | 3#4 => exact readsAs_opcode3 ir bytes hopcode
  | 0#4 => exact .invalid _ hdecode fun _ => rfl
  | 4#4 => exact .two .mov movRow hdecode exec_movRow
  | 5#4 => exact .two .add .add hdecode fun _ _ _ _ => rfl
  | 6#4 => exact .two .addc .addc hdecode fun _ _ _ _ => rfl
  | 7#4 => exact .two .subc .subc hdecode fun _ _ _ _ => rfl
  | 8#4 => exact .two .sub .sub hdecode fun _ _ _ _ => rfl
  | 9#4 => exact .two .cmp .cmp hdecode fun _ _ _ _ => rfl
  | 10#4 => exact .two .dadd .dadd hdecode fun _ _ _ _ => rfl
  | 11#4 => exact .two .bit .bit hdecode fun _ _ _ _ => rfl
  | 12#4 => exact .two .bic .bic hdecode fun _ _ _ _ => rfl
  | 13#4 => exact .two .bis bisRow hdecode exec_bisRow
  | 14#4 => exact .two .xor .xor hdecode fun _ _ _ _ => rfl
  | 15#4 => exact .two .and .and hdecode fun _ _ _ _ => rfl
  | ⟨⟨n + 16, hn⟩⟩ => exact absurd hn (by omega)

end Opcodes

end Sys2Proof
end

section
/-! PROOFS. The outcomes a call can have, one form per kind of word, and what they say of the operands of a record. -/

namespace Sys2Proof

open Sys2Proof.Machine

/-- What a call on the inputs of `s` can answer. -/
inductive CanAnswer (s : State) : CallResult → Prop
  | truncated : (2 ≤ s.n → classify s.mem.instructionWord ≠ none) → CanAnswer s (.failure .truncatedInput)
  | invalid : classify s.mem.instructionWord = none → CanAnswer s (.failure .invalidOpcode)
  | ret : s.mem.instructionWord = config.retWord → CanAnswer s (.record (bareRecord s.address .ret 2))
  | one (m : Mnemonic) (src : SrcField) : classify s.mem.instructionWord = some (m, .oneOperand) →
      CanAnswer s (.record (tabulatedOne s.address m (widthOfBit (slice s.mem.instructionWord 6 1)) src))
  | branch (m : Mnemonic) : classify s.mem.instructionWord = some (m, .branchOnly) →
      CanAnswer s (.record
        { address := s.address, mnemonic := m, cls := .branchOnly
          src := some (branchSource (slice s.mem.instructionWord 0 10)), dst := none, length := 2, emulated := false })
  | two (m : Mnemonic) (src : SrcField) (dst : DstField) : classify s.mem.instructionWord = some (m, .twoOperand) →
      CanAnswer s (.record (normalizeRecord
        (tabulatedTwo s.address m false (widthOfBit (slice s.mem.instructionWord 6 1)) src dst)))

/-- A mnemonic of another class than two-operand is none the Normalizer looks at. -/
theorem ne_mov_and_ne_bis_of_classify {ir : Word} {m : Mnemonic} {cls : InstrClass}
    (h : classify ir = some (m, cls)) (hcls : cls ≠ .twoOperand) : m ≠ .mov ∧ m ≠ .bis := by
  obtain ⟨hclass, -⟩ := classify_eq_some ir m cls h
  constructor <;> rintro rfl <;> exact hcls hclass.symm

/-- The fixed return word is a mapped word: its opcode nibble is 4. -/
theorem classify_retWord : classify config.retWord ≠ none := by decide

section Step

variable {s : State}

/-- A step whose window does not decode is `TruncatedInput`. -/
theorem answers_of_decode_error {e : DecodeError} (h : decode s.window = .error e) :
    Answers s (.failure .truncatedInput) := by
  rw [answers_iff_step, step, h]
  rfl

/-- A step whose window decodes runs the instruction read. -/
theorem answers_of_decode_ok {i : Instr} {rest : List Byte} {c : CallResult} (h : decode s.window = .ok (i, rest))
    (hexec : exec i s.latchIr = .next (s.latchIr.setResult c)) : Answers s c := by
  rw [answers_iff_step, step, h]
  exact hexec

/-- A call that the opcode map decides, not the fixed-word test, ends in an outcome the class of its word allows. -/
theorem exists_answers_of_opcodeMap
    (hdecode : decode s.window = decodeByNibble s.mem.instructionWord (s.window.drop 2)) :
    ∃ c, Answers s c ∧ CanAnswer s c := by
  have hreads := readsAs_classify s.mem.instructionWord (s.window.drop 2)
  generalize hclass : classify s.mem.instructionWord = cls at hreads
  cases hreads with
  | invalid i hi hexec =>
    exact ⟨_, answers_of_decode_ok (hdecode.trans hi) (hexec _), .invalid hclass⟩
  | branch m i hi hexec =>
    obtain ⟨hmov, hbis⟩ := ne_mov_and_ne_bis_of_classify hclass (by decide)
    exact ⟨_, answers_of_decode_ok (hdecode.trans hi) ((hexec _).trans (branchOnly_eq m _ _ hmov hbis)), .branch m hclass⟩
  | one m row hrow hexec =>
    cases hd : decodeOne s.mem.instructionWord (s.window.drop 2) row with
    | error e =>
      exact ⟨_, answers_of_decode_error (hdecode.trans (hrow.trans hd)), .truncated fun _ => by simp [hclass]⟩
    | ok p =>
      obtain ⟨u, w, src, hi, ⟨-, -, rfl, -⟩, hsrc, -⟩ := (decodeOne_ok _ _ p.2 row p.1).1 hd
      obtain ⟨hmov, hbis⟩ := ne_mov_and_ne_bis_of_classify hclass (by decide)
      refine ⟨_, answers_of_decode_ok (hdecode.trans (hrow.trans hd)) ?_, .one m src hclass⟩
      rw [hi, hexec, oneOperand_of_ok m _ src _ hsrc hmov hbis]
      rfl
  | two m row hrow hexec =>
    cases hd : decodeTwo s.mem.instructionWord (s.window.drop 2) row with
    | error e =>
      exact ⟨_, answers_of_decode_error (hdecode.trans (hrow.trans hd)), .truncated fun _ => by simp [hclass]⟩
    | ok p =>
      obtain ⟨w, src, dst, hi, ⟨-, -, -, -, rfl⟩, hsrc, hdst, -⟩ := (decodeTwo_ok _ _ p.2 row p.1).1 hd
      refine ⟨_, answers_of_decode_ok (hdecode.trans (hrow.trans hd)) ?_, .two m src dst hclass⟩
      rw [hi, hexec, twoOperand_of_ok m _ src dst _ hsrc hdst]
      rfl

end Step

/-- Every call ends in an outcome its word allows: too few bytes, the return word, or the word's class decides. -/
theorem exists_answers_canAnswer (s : State) : ∃ c, Answers s c ∧ CanAnswer s c := by
  by_cases hn : 2 ≤ s.n
  · have hdecode := decode_window s hn
    unfold decodeWord at hdecode
    split at hdecode
    · next hret => exact ⟨_, answers_of_decode_ok hdecode rfl, .ret hret⟩
    · exact exists_answers_of_opcodeMap hdecode
  · exact ⟨_, answers_of_decode_error (decode_of_short s (by omega)), .truncated fun h => absurd h hn⟩

/-- What a call answers is one of the outcomes its word allows. -/
theorem Answers.canAnswer {s : State} {c : CallResult} (h : Answers s c) : CanAnswer s c := by
  obtain ⟨d, hd, hcan⟩ := exists_answers_canAnswer s
  rwa [h.unique hd]

/-- With an instruction word there, `InvalidOpcode` is the failed classification and nothing else. -/
theorem answers_invalidOpcode_iff {s : State} (hn : 2 ≤ s.n) :
    Answers s (.failure .invalidOpcode) ↔ classify s.mem.instructionWord = none := by
  constructor
  · intro h
    cases h.canAnswer with
    | invalid hclass => exact hclass
  · intro hclass
    obtain ⟨c, hc, hcan⟩ := exists_answers_canAnswer s
    cases hcan with
    | invalid => exact hc
    | truncated hmapped => exact absurd hclass (hmapped hn)
    | ret hret => exact absurd hclass (hret ▸ classify_retWord)
    | one m src hsome => simp [hclass] at hsome
    | branch m hsome => simp [hclass] at hsome
    | two m src dst hsome => simp [hclass] at hsome

/-- An operand the Normalizer leaves in a record is the one it found there: it drops operands and makes none. -/
theorem operand_of_normalizeRecord {r : Record} {o : Operand}
    (h : (normalizeRecord r).src = some o ∨ (normalizeRecord r).dst = some o) : r.src = some o ∨ r.dst = some o := by
  obtain ⟨-, heq⟩ | ⟨-, -, heq⟩ | ⟨-, -, heq⟩ := normalizeRecord_cases r <;> rw [heq] at h
  · exact h
  · simp at h
  · exact h

/-- The Normalizer keeps the class, or leaves none. -/
theorem cls_of_normalizeRecord {r : Record} {cls : InstrClass} (h : (normalizeRecord r).cls = cls) :
    r.cls = cls ∨ cls = .none := by
  obtain ⟨-, heq⟩ | ⟨-, -, heq⟩ | ⟨-, -, heq⟩ := normalizeRecord_cases r <;> rw [heq] at h
  · exact .inl h
  · exact .inr h.symm
  · exact .inl h

/-- An operand of a returned record is the branch offset of a branch-only record, or an operand of the tables with the
width bit 6 of its word gives. -/
theorem operand_of_answers {s : State} {r : Record} {o : Operand} (h : Answers s (.record r))
    (ho : r.src = some o ∨ r.dst = some o) :
    (r.cls = .branchOnly ∧ o.mode = .pcRelativeOffset) ∨
      ∃ reg m ext, o = tabulatedOperand (widthOfBit (slice s.mem.instructionWord 6 1)) reg m ext := by
  cases h.canAnswer with
  | ret => simp [bareRecord] at ho
  | branch m =>
    simp only [Option.some.injEq, reduceCtorEq, or_false] at ho
    exact .inl ⟨rfl, ho ▸ rfl⟩
  | one m src =>
    simp only [tabulatedOne, Option.some.injEq, reduceCtorEq, or_false] at ho
    exact .inr ⟨_, _, _, ho.symm⟩
  | two m src dst =>
    obtain hsrc | hdst := operand_of_normalizeRecord ho
    · exact .inr ⟨_, _, _, (Option.some.inj hsrc).symm⟩
    · exact .inr ⟨_, _, _, (Option.some.inj hdst).symm⟩

/-- The source of a returned branch-only record is the offset of its word. -/
theorem src_of_answers_branchOnly {s : State} {r : Record} (h : Answers s (.record r)) (hcls : r.cls = .branchOnly) :
    r.src = some (branchSource (slice s.mem.instructionWord 0 10)) := by
  cases h.canAnswer with
  | branch m => rfl
  | ret => simp [bareRecord] at hcls
  | one m src => simp [tabulatedOne] at hcls
  | two m src dst =>
    obtain hkept | hnone := cls_of_normalizeRecord hcls
    · simp [tabulatedTwo] at hkept
    · simp at hnone

end Sys2Proof
end

section
/-! PROOFS. The encoding statements: the unmapped words (30_encoding.md R57, R59), the width bit (R56), the constant modes
(R63) and the branch offset (R61). -/

namespace Sys2Proof

open Sys2Proof.Machine

/-- The opcode nibble is what the word leaves above its low twelve bits. -/
theorem toNat_opcode (ir : Word) : (slice ir 12 4).toNat = ir.toNat / 4096 := by
  have hlt := ir.isLt
  rw [slice, BitVec.extractLsb'_toNat, Nat.shiftRight_eq_div_pow]
  omega

/-- Settles O31: such a word has opcode nibble 0, which fails classification. -/
theorem opcodeNibbleZeroIsInvalid : Obligations.OpcodeNibbleZeroIsInvalid := by
  unfold Obligations.OpcodeNibbleZeroIsInvalid
  intro s hn hlow
  have hopcode : slice s.mem.instructionWord 12 4 = 0#4 := by
    apply BitVec.eq_of_toNat_eq
    rw [toNat_opcode]
    exact Nat.div_eq_of_lt hlow
  rw [answers_invalidOpcode_iff hn, classify_eq_none]
  exact .inl hopcode

/-- The mask 0xF380 keeps the opcode nibble and the selector of opcode 1. -/
theorem and_selectorMask (ir : Word) : ir &&& 0xF380#16 = slice ir 12 4 ++ 0#2 ++ slice ir 7 3 ++ 0#7 := by
  unfold slice; apply BitVec.eq_of_getLsbD_eq; intro i hi
  simp only [BitVec.getLsbD_append, BitVec.getLsbD_extractLsb', BitVec.getLsbD_and]
  interval_cases i <;> simp

/-- The mask and match of the row of selector 7 say its two fields. -/
theorem and_selectorMask_eq_iff (ir : Word) :
    ir &&& 0xF380#16 = 0x1380#16 ↔ slice ir 12 4 = 1#4 ∧ slice ir 7 3 = 7#3 := by
  rw [and_selectorMask]
  generalize slice ir 12 4 = opcode
  generalize slice ir 7 3 = sel
  revert opcode sel
  decide

/-- Settles O32: classification fails on opcode nibble 0 and on selector 7 of opcode nibble 1 only. -/
theorem onlySelectorSevenIsUnmapped : Obligations.OnlySelectorSevenIsUnmapped := by
  unfold Obligations.OnlySelectorSevenIsUnmapped
  intro s hn
  rw [answers_invalidOpcode_iff hn, classify_eq_none, ne_eq, and_selectorMask_eq_iff]
  refine ⟨.inr, fun hone hsel => ?_, fun hbranch => ?_⟩
  · rintro (hzero | hseven)
    · simp [hone] at hzero
    · exact hsel hseven
  · rintro (hzero | ⟨hone, -⟩)
    · simp [hzero] at hbranch
    · simp [hone] at hbranch

/-- The width field of a word is its bit 6. -/
theorem widthOfBit_slice (ir : Word) : widthOfBit (slice ir 6 1) = if ir.getLsbD 6 then .byte else .word := by
  have hbit : slice ir 6 1 = BitVec.ofBool (ir.getLsbD 6) := by
    ext i hi
    obtain rfl : i = 0 := by omega
    simp [slice]
  rw [hbit]
  cases ir.getLsbD 6 <;> rfl

/-- Settles O33: outside the branch-only class an operand is one of the tables, with the width of bit 6. -/
theorem widthIsBitSix : Obligations.WidthIsBitSix := by
  unfold Obligations.WidthIsBitSix
  intro s r o h hcls ho
  obtain ⟨hbranch, -⟩ | ⟨reg, m, ext, rfl⟩ := operand_of_answers h ho
  · simp [hbranch] at hcls
  · exact widthOfBit_slice s.mem.instructionWord

/-- Settles O35: the branch offset is no constant, and the tables give each constant its literal. -/
theorem constantOperandsCarryTheirLiteral : Obligations.ConstantOperandsCarryTheirLiteral := by
  unfold Obligations.ConstantOperandsCarryTheirLiteral
  intro s r o h ho
  obtain ⟨-, hmode⟩ | ⟨reg, m, ext, rfl⟩ := operand_of_answers h ho
  · simp [hmode]
  · refine ⟨?_, ?_, ?_, ?_, ?_, ?_⟩ <;>
    · intro hmode
      obtain rfl : m = _ := hmode
      exact ⟨rfl, rfl⟩

/-- Sign extension is the two's-complement reading of the field. -/
theorem sext10_eq_toInt (v : BitVec 10) : sext10 v = v.toInt := by
  rw [sext10, BitVec.toInt_eq_msb_cond]
  rfl

/-- The offset field of a word, on the word itself. -/
theorem sext10_slice (ir : Word) :
    sext10 (slice ir 0 10) = if ir.getLsbD 9 then ((ir.toNat % 1024 : Nat) : Int) - 1024
      else ((ir.toNat % 1024 : Nat) : Int) := by
  have hmsb : (slice ir 0 10).msb = ir.getLsbD 9 := by simp [BitVec.msb_eq_getLsbD_last, slice]
  have hlow : (slice ir 0 10).toNat = ir.toNat % 1024 := by simp [slice]
  rw [sext10, hmsb, hlow]

/-- Settles O39: the source is the branch operand of the word, whose value is the low ten bits, sign-extended. -/
theorem branchOffsetIsSignExtended : Obligations.BranchOffsetIsSignExtended := by
  unfold Obligations.BranchOffsetIsSignExtended
  refine ⟨fun s r h hcls => ?_, by decide, by decide, by decide⟩
  have hsrc := src_of_answers_branchOnly h hcls
  refine ⟨sext10 (slice s.mem.instructionWord 0 10), by rw [hsrc]; rfl, ?_, ?_, sext10_slice _⟩
  · rw [sext10_eq_toInt]
    exact BitVec.le_toInt (slice s.mem.instructionWord 0 10)
  · rw [sext10_eq_toInt]
    exact Int.le_of_lt_add_one (BitVec.toInt_lt (x := slice s.mem.instructionWord 0 10))

end Sys2Proof
end

section
/-! PROOFS. A step against the decode function of 40_decode_pipeline.md R70: the decoder takes an operand's extension
word where R70 step 9 reads it, and fails for a missing one where R70 step 8 compares the byte count with the length. -/

namespace Sys2Proof

open Sys2Proof.Machine

/-! ### Extension words, from the buffer -/

/-- The extension word at the offset `off` of the buffer, for an operand of `extra` extra bytes. -/
def extensionAt (buf : Memory) (off extra : Nat) : Option Word :=
  if extra = 2 then some (buf.read2 off) else none

/-- The source fields whose extension word, if any, stands at the offset `off` of the buffer. -/
def sourceFieldAt (buf : Memory) (off : Nat) (reg : Reg) (mode : RawSrcMode) : SrcField :=
  ⟨reg, mode, extensionAt buf off (extraOf (reinterpretSource reg mode))⟩

/-- The destination fields whose extension word, if any, stands at the offset `off` of the buffer. -/
def destinationFieldAt (buf : Memory) (off : Nat) (reg : Reg) (mode : RawDstMode) : DstField :=
  ⟨reg, mode, extensionAt buf off (extraOf (reinterpretDestination reg mode))⟩

/-- Filling an operand with its word of the buffer is R70 step 9. -/
theorem fillValue_extensionAt (buf : Memory) (off : Nat) (o : Operand) :
    fillValue o (extensionAt buf off o.extra) = some (readExtension buf off o) := by
  unfold fillValue extensionAt readExtension
  split <;> rfl

theorem fillValue_sourceFieldAt (buf : Memory) (off : Nat) (w : Width) (reg : Reg) (mode : RawSrcMode) :
    fillValue (sourceOperand w (sourceFieldAt buf off reg mode).reg (sourceFieldAt buf off reg mode).mode)
      (sourceFieldAt buf off reg mode).ext = some (readExtension buf off (sourceOperand w reg mode)) :=
  fillValue_extensionAt buf off (sourceOperand w reg mode)

theorem fillValue_destinationFieldAt (buf : Memory) (off : Nat) (w : Width) (reg : Reg) (mode : RawDstMode) :
    fillValue
        (destinationOperand w (destinationFieldAt buf off reg mode).reg (destinationFieldAt buf off reg mode).mode)
        (destinationFieldAt buf off reg mode).ext = some (readExtension buf off (destinationOperand w reg mode)) :=
  fillValue_extensionAt buf off (destinationOperand w reg mode)

section Window

variable {s : State} {k : Nat}

/-- A missing extension word, at an offset the bytes before it reach. -/
theorem takeExtension_of_short {extra : Nat} (hextra : extra = 0 ∨ extra = 2) (hk : k ≤ s.n) (h : s.n < k + extra) :
    takeExtension extra (s.window.drop k) = .error .missingExtensionWord := by
  obtain rfl | rfl := hextra
  · omega
  · rw [takeExtension_window, if_neg (by omega)]

/-- What the decoder takes for an operand whose bytes are all there; the fetch window holds it from an offset up
to 4. -/
theorem takeExtension_of_whole {extra : Nat} (hextra : extra = 0 ∨ extra = 2) (hmax : k ≤ 4)
    (h : k + extra ≤ s.n) :
    takeExtension extra (s.window.drop k) = .ok (extensionAt s.mem k extra, s.window.drop (k + extra)) := by
  obtain rfl | rfl := hextra
  · rfl
  · have hfits : k + 2 ≤ min s.n config.maxLen := by
      simp only [config]
      omega
    rw [takeExtension_window, if_pos hfits]
    rfl

variable {reg : Reg} {smode : RawSrcMode} {dmode : RawDstMode}

theorem takeSource_of_short (hk : k ≤ s.n) (h : s.n < k + extraOf (reinterpretSource reg smode)) :
    takeSource reg smode (s.window.drop k) = .error .missingExtensionWord := by
  rw [takeSource, takeExtension_of_short (extraOf_eq _) hk h]

theorem takeSource_of_whole (hmax : k ≤ 4) (h : k + extraOf (reinterpretSource reg smode) ≤ s.n) :
    takeSource reg smode (s.window.drop k) =
      .ok (sourceFieldAt s.mem k reg smode, s.window.drop (k + extraOf (reinterpretSource reg smode))) := by
  rw [takeSource, takeExtension_of_whole (extraOf_eq _) hmax h]
  rfl

theorem takeDestination_of_short (hk : k ≤ s.n) (h : s.n < k + extraOf (reinterpretDestination reg dmode)) :
    takeDestination reg dmode (s.window.drop k) = .error .missingExtensionWord := by
  rw [takeDestination, takeExtension_of_short (extraOf_eq _) hk h]

theorem takeDestination_of_whole (hmax : k ≤ 4) (h : k + extraOf (reinterpretDestination reg dmode) ≤ s.n) :
    takeDestination reg dmode (s.window.drop k) =
      .ok (destinationFieldAt s.mem k reg dmode, s.window.drop (k + extraOf (reinterpretDestination reg dmode))) := by
  rw [takeDestination, takeExtension_of_whole (extraOf_eq _) hmax h]
  rfl

end Window

/-! ### The formats -/

/-- The record of R70 steps 7 to 9, before the Normalizer. -/
def assembledRecord (buf : Memory) (address : Int) (m : Mnemonic) (cls : InstrClass) (src : Operand)
    (dst : Option Operand) : Record :=
  { address := address, mnemonic := m, cls := cls, src := some (readExtension buf 2 src)
    dst := dst.map (readExtension buf (2 + src.extra)), length := instructionLength (some src) dst, emulated := false }

theorem assembleWord_of_short {buf : Memory} {n : Nat} {address : Int} {m : Mnemonic} {cls : InstrClass} {src : Operand}
    {dst : Option Operand} (h : n < instructionLength (some src) dst) :
    assembleWord buf n address m cls src dst = .failure .truncatedInput := if_pos h

theorem assembleWord_of_whole {buf : Memory} {n : Nat} {address : Int} {m : Mnemonic} {cls : InstrClass} {src : Operand}
    {dst : Option Operand} (h : instructionLength (some src) dst ≤ n) :
    assembleWord buf n address m cls src dst = .record (normalizeRecord (assembledRecord buf address m cls src dst)) :=
  if_neg (Nat.not_lt.2 h)

section Templates

variable (buf : Memory) (m : Mnemonic) (w : Width) (s : State)

theorem oneOperand_fieldAt (reg : Reg) (mode : RawSrcMode) :
    oneOperand m w (sourceFieldAt buf 2 reg mode) s =
      .next (s.setResult (.record (normalizeRecord
        (assembledRecord buf s.address m .oneOperand (sourceOperand w reg mode) none)))) := by
  simp only [oneOperand, fillValue_sourceFieldAt, State.returnRecord_eq, instructionLength, extraBytes,
    readExtension_extra, assembledRecord, Option.map_none]

theorem twoOperand_fieldsAt (sreg dreg : Reg) (smode : RawSrcMode) (dmode : RawDstMode) :
    twoOperand m w (sourceFieldAt buf 2 sreg smode)
        (destinationFieldAt buf (2 + (sourceOperand w sreg smode).extra) dreg dmode) s =
      .next (s.setResult (.record (normalizeRecord
        (assembledRecord buf s.address m .twoOperand (sourceOperand w sreg smode)
          (some (destinationOperand w dreg dmode)))))) := by
  simp only [twoOperand, fillValue_sourceFieldAt, fillValue_destinationFieldAt, State.returnRecord_eq,
    instructionLength, extraBytes, readExtension_extra, assembledRecord, Option.map_some]

end Templates

theorem sourceOfWord_oneOperand (ir : Word) :
    sourceOfWord .oneOperand ir =
      sourceOperand (widthOfBit (slice ir 6 1)) (regOfIndex (slice ir 0 4)) (rawSrcModeOfBits (slice ir 4 2)) := rfl

theorem sourceOfWord_twoOperand (ir : Word) :
    sourceOfWord .twoOperand ir =
      sourceOperand (widthOfBit (slice ir 6 1)) (regOfIndex (slice ir 8 4)) (rawSrcModeOfBits (slice ir 4 2)) := rfl

section Step

variable {s : State} {m : Mnemonic}

/-- A word of the branch-only format takes no extension word. -/
theorem answers_assembleWord_branch {i : Instr} (hn : 2 ≤ s.n) (hdecode : decode s.window = .ok (i, s.window.drop 2))
    (hexec : ∀ t, exec i t = branchOnly m (slice s.mem.instructionWord 0 10) t) :
    Answers s (assembleWord s.mem s.n s.address m .branchOnly (branchSource (slice s.mem.instructionWord 0 10))
      none) := by
  rw [assembleWord_of_whole (src := branchSource (slice s.mem.instructionWord 0 10)) (dst := none) hn]
  exact answers_of_decode_ok hdecode (hexec _)

/-- A word of the one-operand format: too few bytes, or the assembled record. -/
theorem answers_assembleWord_one {row : BitVec 2 → Width → SrcField → Instr} (hn : 2 ≤ s.n)
    (hdecode : decode s.window = decodeOne s.mem.instructionWord (s.window.drop 2) row)
    (hexec : ∀ u w src t, exec (row u w src) t = oneOperand m w src t) :
    Answers s (assembleWord s.mem s.n s.address m .oneOperand (sourceOfWord .oneOperand s.mem.instructionWord)
      none) := by
  rw [decodeOne] at hdecode
  rw [sourceOfWord_oneOperand]
  generalize widthOfBit (slice s.mem.instructionWord 6 1) = w at hdecode ⊢
  generalize regOfIndex (slice s.mem.instructionWord 0 4) = reg at hdecode ⊢
  generalize rawSrcModeOfBits (slice s.mem.instructionWord 4 2) = mode at hdecode ⊢
  obtain hshort | hwhole := Nat.lt_or_ge s.n (2 + extraOf (reinterpretSource reg mode))
  · rw [takeSource_of_short hn hshort] at hdecode
    rw [assembleWord_of_short hshort]
    exact answers_of_decode_error hdecode
  · rw [takeSource_of_whole (by decide) hwhole] at hdecode
    rw [assembleWord_of_whole hwhole]
    exact answers_of_decode_ok hdecode ((hexec ..).trans (oneOperand_fieldAt ..))

/-- A word of the two-operand format: too few bytes for its source or for its destination, or the assembled record. -/
theorem answers_assembleWord_two {row : Width → SrcField → DstField → Instr} (hn : 2 ≤ s.n)
    (hdecode : decode s.window = decodeTwo s.mem.instructionWord (s.window.drop 2) row)
    (hexec : ∀ w src dst t, exec (row w src dst) t = twoOperand m w src dst t) :
    Answers s (assembleWord s.mem s.n s.address m .twoOperand (sourceOfWord .twoOperand s.mem.instructionWord)
      (some (destinationOfWord s.mem.instructionWord))) := by
  rw [decodeTwo] at hdecode
  rw [sourceOfWord_twoOperand, destinationOfWord]
  generalize widthOfBit (slice s.mem.instructionWord 6 1) = w at hdecode ⊢
  generalize regOfIndex (slice s.mem.instructionWord 8 4) = sreg at hdecode ⊢
  generalize rawSrcModeOfBits (slice s.mem.instructionWord 4 2) = smode at hdecode ⊢
  generalize regOfIndex (slice s.mem.instructionWord 0 4) = dreg at hdecode ⊢
  generalize rawDstModeOfBit (slice s.mem.instructionWord 7 1) = dmode at hdecode ⊢
  obtain hsrc | hsrc := Nat.lt_or_ge s.n (2 + extraOf (reinterpretSource sreg smode))
  · rw [takeSource_of_short hn hsrc] at hdecode
    rw [assembleWord_of_short (Nat.lt_add_right _ hsrc)]
    exact answers_of_decode_error hdecode
  · rw [takeSource_of_whole (by decide) hsrc] at hdecode
    have hmax : 2 + extraOf (reinterpretSource sreg smode) ≤ 4 := by
      obtain h | h := extraOf_eq (reinterpretSource sreg smode) <;> omega
    obtain hdst | hdst := Nat.lt_or_ge s.n
      (2 + extraOf (reinterpretSource sreg smode) + extraOf (reinterpretDestination dreg dmode))
    · simp only [takeDestination_of_short hsrc hdst] at hdecode
      rw [assembleWord_of_short hdst]
      exact answers_of_decode_error hdecode
    · simp only [takeDestination_of_whole hmax hdst] at hdecode
      rw [assembleWord_of_whole hdst]
      exact answers_of_decode_ok hdecode ((hexec ..).trans (twoOperand_fieldsAt ..))

/-- A call that the opcode map decides, not the fixed-word test, answers what R70 makes of the class of its word. -/
theorem answers_decodeCall_of_opcodeMap (hn : 2 ≤ s.n) (hret : s.mem.instructionWord ≠ config.retWord) :
    Answers s (decodeCall s.mem s.n s.address) := by
  have hdecode := decode_window s hn
  rw [decodeWord, if_neg hret] at hdecode
  have hreads := readsAs_classify s.mem.instructionWord (s.window.drop 2)
  simp only [decodeCall, if_neg (Nat.not_lt.2 hn), if_neg hret]
  generalize classify s.mem.instructionWord = cls at hreads ⊢
  cases hreads with
  | invalid i hi hexec => exact answers_of_decode_ok (hdecode.trans hi) (hexec _)
  | one m row hrow hexec => exact answers_assembleWord_one hn (hdecode.trans hrow) hexec
  | branch m i hi hexec => exact answers_assembleWord_branch hn (hdecode.trans hi) hexec
  | two m row hrow hexec => exact answers_assembleWord_two hn (hdecode.trans hrow) hexec

/-- A call answers the decode function of 40_decode_pipeline.md R70 on the inputs of the state. -/
theorem answers_decodeCall (s : State) : Answers s (decodeCall s.mem s.n s.address) := by
  by_cases hn : 2 ≤ s.n
  · by_cases hret : s.mem.instructionWord = config.retWord
    · have hdecode := decode_window s hn
      rw [decodeWord, if_pos hret] at hdecode
      simp only [decodeCall, if_neg (Nat.not_lt.2 hn), if_pos hret]
      exact answers_of_decode_ok hdecode rfl
    · exact answers_decodeCall_of_opcodeMap hn hret
  · simp only [decodeCall, if_pos (Nat.lt_of_not_le hn)]
    exact answers_of_decode_error (decode_of_short s (Nat.lt_of_not_le hn))

end Step

end Sys2Proof
end

section
/-! PROOFS. The decode pipeline (40_decode_pipeline.md): the mode tables (R81, R85), the Normalizer (R92), the length
(R87) and the extension words (R89) of a returned record. -/

namespace Sys2Proof

open Sys2Proof.Machine

/-! ### The mode tables -/

/-- Settles O36: the nine rows by evaluation; a pair that is none of them falls to the last arm. -/
theorem sourceReinterpretation : Obligations.SourceReinterpretation := by
  unfold Obligations.SourceReinterpretation
  refine ⟨rfl, rfl, rfl, rfl, rfl, rfl, rfl, rfl, rfl, fun reg raw hpair => ?_⟩
  unfold reinterpretSource
  split
  case h_10 => rfl
  all_goals exact absurd (by decide) hpair

/-- Settles O38, mode by mode. -/
theorem fourModesTakeAnExtensionWord : Obligations.FourModesTakeAnExtensionWord := by
  unfold Obligations.FourModesTakeAnExtensionWord
  intro m
  cases m <;> rfl

/-! ### The Normalizer -/

theorem isBranchForm_iff (r : Record) :
    isBranchForm r = true ↔ r.mnemonic = .mov ∧ r.dst.bind Operand.reg = some .pc := by
  simp [isBranchForm]

theorem isDintForm_iff (r : Record) :
    isDintForm r = true ↔
      r.mnemonic = .bis ∧ r.dst.bind Operand.reg = some .sr ∧ r.src.bind Operand.value = some 0xF0 := by
  simp [isDintForm, config, and_assoc]

@[simp] theorem normalizeRecord_address (r : Record) : (normalizeRecord r).address = r.address := by
  obtain ⟨-, heq⟩ | ⟨-, -, heq⟩ | ⟨-, -, heq⟩ := normalizeRecord_cases r <;> rw [heq]

@[simp] theorem normalizeRecord_length (r : Record) : (normalizeRecord r).length = r.length := by
  obtain ⟨-, heq⟩ | ⟨-, -, heq⟩ | ⟨-, -, heq⟩ := normalizeRecord_cases r <;> rw [heq]

/-- The Normalizer drops both operands of a `bis` it makes `dint`, and keeps both of every other record. -/
theorem normalizeRecord_operands (r : Record) :
    (r.mnemonic = .bis ∧ (normalizeRecord r).mnemonic = .dint ∧ (normalizeRecord r).src = none ∧
      (normalizeRecord r).dst = none) ∨
    (((normalizeRecord r).mnemonic = .br ∨ (normalizeRecord r).mnemonic = r.mnemonic) ∧
      (normalizeRecord r).src = r.src ∧ (normalizeRecord r).dst = r.dst) := by
  obtain ⟨-, heq⟩ | ⟨-, hdint, heq⟩ | ⟨-, -, heq⟩ := normalizeRecord_cases r <;> rw [heq]
  · exact .inr ⟨.inl rfl, rfl, rfl⟩
  · exact .inl ⟨((isDintForm_iff r).1 hdint).1, rfl, rfl, rfl⟩
  · exact .inr ⟨.inr rfl, rfl, rfl⟩

/-- Settles O40: the two forms the Normalizer rewrites are the two excluded, and a rewrite sets neither field. -/
theorem noOtherRewrites : Obligations.NoOtherRewrites := by
  unfold Obligations.NoOtherRewrites
  intro r
  refine ⟨fun hbranch hdint => normalize_of_not r ?_ ?_, normalizeRecord_address r, normalizeRecord_length r⟩
  · rwa [← Bool.not_eq_true, isBranchForm_iff]
  · rwa [← Bool.not_eq_true, isDintForm_iff]

/-! ### Returned records -/

/-- The record R70 assembles for the instruction word of `s`, before the Normalizer. -/
def recordOfWord (s : State) (m : Mnemonic) (cls : InstrClass) : Record :=
  assembledRecord s.mem s.address m cls (operandsOfWord cls s.mem.instructionWord).1
    (operandsOfWord cls s.mem.instructionWord).2

/-- A returned record is that of `ret`, or the Normalizer's of a classified word whose bytes are all there. -/
theorem Answers.record_cases {s : State} {r : Record} (h : Answers s (.record r)) :
    (s.mem.instructionWord = config.retWord ∧ 2 ≤ s.n ∧ r = bareRecord s.address .ret 2) ∨
    (s.mem.instructionWord ≠ config.retWord ∧ ∃ m cls, classify s.mem.instructionWord = some (m, cls) ∧
      (recordOfWord s m cls).length ≤ s.n ∧ r = normalizeRecord (recordOfWord s m cls)) := by
  have hcall := (answers_decodeCall s).unique h
  unfold decodeCall at hcall
  split at hcall
  · cases hcall
  · next hn =>
    simp only at hcall
    split at hcall
    · next hret => exact .inl ⟨hret, Nat.not_lt.1 hn, (CallResult.record.inj hcall).symm⟩
    · next hret =>
      split at hcall
      · cases hcall
      · next m cls hclass =>
        obtain hshort | hwhole := Nat.lt_or_ge s.n (recordOfWord s m cls).length
        · rw [assembleWord_of_short hshort] at hcall
          cases hcall
        · rw [assembleWord_of_whole hwhole] at hcall
          exact .inr ⟨hret, m, cls, hclass, hwhole, (CallResult.record.inj hcall).symm⟩

section Length

variable {s : State} {m : Mnemonic}

theorem length_recordOfWord_oneOperand :
    (recordOfWord s m .oneOperand).length =
      2 + lengthTableSource (slice s.mem.instructionWord 4 2) (slice s.mem.instructionWord 0 4) := by
  rw [← extraOf_source]
  rfl

theorem length_recordOfWord_branchOnly : (recordOfWord s m .branchOnly).length = 2 := rfl

theorem length_recordOfWord_twoOperand :
    (recordOfWord s m .twoOperand).length =
      2 + lengthTableSource (slice s.mem.instructionWord 4 2) (slice s.mem.instructionWord 8 4) +
        if slice s.mem.instructionWord 7 1 = 1#1 then 2 else 0 := by
  rw [← extraOf_source, ← extraOf_destination _ (slice s.mem.instructionWord 0 4)]
  rfl

/-- The assembled length of a classified word is that of the length table (30_encoding.md R64). -/
theorem lengthTable_of_classify {cls : InstrClass} (hret : s.mem.instructionWord ≠ config.retWord)
    (hclass : classify s.mem.instructionWord = some (m, cls)) :
    lengthTable s.mem.instructionWord = some (recordOfWord s m cls).length := by
  obtain ⟨-, -, hopcode, -⟩ := classify_eq_some _ _ _ hclass
  rw [lengthTable, if_neg hret]
  obtain ⟨rfl, hone, hsel⟩ | ⟨rfl, hbranch⟩ | ⟨rfl, htwo⟩ := hopcode
  · rw [length_recordOfWord_oneOperand, hone, if_neg (by decide), if_pos rfl, if_neg hsel]
  · rw [length_recordOfWord_branchOnly, if_neg, if_neg, if_pos hbranch] <;>
      obtain h | h := hbranch <;> simp [h]
  · simp only [List.mem_cons, List.not_mem_nil, or_false, not_or] at htwo
    obtain ⟨h0, h1, h2, h3⟩ := htwo
    rw [length_recordOfWord_twoOperand, if_neg h0, if_neg h1, if_neg (not_or.2 ⟨h2, h3⟩)]

/-- The length of a returned record is that of the length table, a function of the word, and it fits the buffer. -/
theorem Answers.lengthTable_eq {r : Record} (h : Answers s (.record r)) :
    lengthTable s.mem.instructionWord = some r.length ∧ r.length ≤ s.n := by
  obtain ⟨hret, hn, rfl⟩ | ⟨hret, m, cls, hclass, hfits, rfl⟩ := h.record_cases
  · exact ⟨if_pos hret, hn⟩
  · rw [normalizeRecord_length]
    exact ⟨lengthTable_of_classify hret hclass, hfits⟩

theorem lengthTableSource_eq (a : BitVec 2) (r : BitVec 4) : lengthTableSource a r = 0 ∨ lengthTableSource a r = 2 := by
  rw [← extraOf_source]
  exact extraOf_eq _

/-- The lengths of the length table. -/
theorem eq_of_lengthTable {ir : Word} {len : Nat} (h : lengthTable ir = some len) :
    len = 2 ∨ len = 4 ∨ len = 6 := by
  have hone := lengthTableSource_eq (slice ir 4 2) (slice ir 0 4)
  have htwo := lengthTableSource_eq (slice ir 4 2) (slice ir 8 4)
  unfold lengthTable at h
  split_ifs at h <;> simp only [Option.some.injEq] at h <;> omega

/-- A classified word assembles no `dint`, and a `bis` only as a two-operand record. -/
theorem ne_dint_and_bis_of_classify {ir : Word} {cls : InstrClass} (h : classify ir = some (m, cls)) :
    m ≠ .dint ∧ (m = .bis → cls = .twoOperand) := by
  obtain ⟨rfl, -, hcls, -⟩ := classify_eq_some _ _ _ h
  refine ⟨?_, ?_⟩
  · rintro rfl
    simp [Mnemonic.recordClass] at hcls
  · rintro rfl
    rfl

theorem length_recordOfWord (cls : InstrClass) :
    (recordOfWord s m cls).length =
      2 + extraBytes (recordOfWord s m cls).src + extraBytes (recordOfWord s m cls).dst := by
  cases cls <;> simp [recordOfWord, assembledRecord, operandsOfWord, instructionLength, extraBytes]

/-- The operands counted in a returned length: those of the record, save where the Normalizer dropped them from a `bis`,
which are those of its word. -/
theorem Answers.length_eq {r : Record} (h : Answers s (.record r)) :
    (r.mnemonic ≠ .dint → r.length = 2 + extraBytes r.src + extraBytes r.dst) ∧
    (r.mnemonic = .dint → r.length = 2 + (sourceOfWord .twoOperand s.mem.instructionWord).extra +
      (destinationOfWord s.mem.instructionWord).extra) := by
  obtain ⟨-, -, rfl⟩ | ⟨-, m, cls, hclass, -, rfl⟩ := h.record_cases
  · exact ⟨fun _ => rfl, nofun⟩
  · obtain ⟨hm, hbis⟩ := ne_dint_and_bis_of_classify hclass
    rw [normalizeRecord_length]
    obtain ⟨hm', hdint, -, -⟩ | ⟨hkept, hsrc, hdst⟩ := normalizeRecord_operands (recordOfWord s m cls)
    · obtain rfl := hbis hm'
      exact ⟨fun hne => absurd hdint hne, fun _ => rfl⟩
    · rw [hsrc, hdst]
      refine ⟨fun _ => length_recordOfWord cls, fun hdint => ?_⟩
      rw [hdint] at hkept
      obtain hbr | hsame := hkept
      · cases hbr
      · exact absurd hsame.symm hm

end Length

/-- Settles O29: the length is the table's (`Answers.lengthTable_eq`), so 2, 4 or 6 and one for equal words, and counts
the operands (`Answers.length_eq`). -/
theorem lengthIsTwoPlusExtraBytes : Obligations.LengthIsTwoPlusExtraBytes := by
  unfold Obligations.LengthIsTwoPlusExtraBytes
  intro s r h
  obtain ⟨htable, hfits⟩ := h.lengthTable_eq
  obtain ⟨hkept, hdint⟩ := h.length_eq
  refine ⟨eq_of_lengthTable htable, hfits, hkept, hdint, fun t q hword hq => ?_⟩
  have hqtable := hq.lengthTable_eq.1
  rw [hword, htable] at hqtable
  exact (Option.some.inj hqtable).symm

/-! ### Extension words -/

theorem toNat_read2 (buf : Memory) (off : Nat) :
    ((buf.read2 off).toNat : Int) = (buf.read off).toNat + 256 * (buf.read (off + 1)).toNat := by
  have hlow := (buf.read off).isLt
  rw [Memory.read2, littleWord, BitVec.toNat_append, ← Nat.shiftLeft_add_eq_or_of_lt hlow, Nat.shiftLeft_eq]
  push_cast
  ring

theorem readExtension_value {buf : Memory} {off : Nat} {o : Operand} (hextra : o.extra = 2) :
    (readExtension buf off o).value = some ((buf.read off).toNat + 256 * (buf.read (off + 1)).toNat : Int) := by
  rw [readExtension, if_pos hextra, toNat_read2]

/-- The operands of a word take the extra bytes of their modes. -/
theorem extra_operandsOfWord (cls : InstrClass) (ir : Word) :
    (operandsOfWord cls ir).1.extra = extraOf (operandsOfWord cls ir).1.mode ∧
      ∀ o, (operandsOfWord cls ir).2 = some o → o.extra = extraOf o.mode := by
  cases cls with
  | twoOperand => exact ⟨rfl, fun o ho => Option.some.inj ho ▸ rfl⟩
  | oneOperand => exact ⟨rfl, nofun⟩
  | branchOnly => exact ⟨rfl, nofun⟩
  | none => exact ⟨rfl, nofun⟩

/-- The source of an assembled record has its word at offset 2. -/
theorem src_value_recordOfWord {s : State} {m : Mnemonic} {cls : InstrClass} {o : Operand}
    (ho : (recordOfWord s m cls).src = some o) (hmode : extraOf o.mode = 2) :
    o.value = some ((s.mem.read 2).toNat + 256 * (s.mem.read 3).toNat : Int) := by
  obtain rfl := Option.some.inj ho
  rw [readExtension_mode] at hmode
  exact readExtension_value ((extra_operandsOfWord cls s.mem.instructionWord).1.trans hmode)

/-- The destination of an assembled record has its word after that of the source. -/
theorem dst_value_recordOfWord {s : State} {m : Mnemonic} {cls : InstrClass} {o : Operand}
    (ho : (recordOfWord s m cls).dst = some o) (hmode : extraOf o.mode = 2) :
    o.value =
      if extraBytes (recordOfWord s m cls).src = 2 then
        some ((s.mem.read 4).toNat + 256 * (s.mem.read 5).toNat : Int)
      else some ((s.mem.read 2).toNat + 256 * (s.mem.read 3).toNat : Int) := by
  obtain ⟨hsrc, hdst⟩ := extra_operandsOfWord cls s.mem.instructionWord
  obtain ⟨d, hd, rfl⟩ := Option.map_eq_some_iff.1 ho
  rw [readExtension_mode] at hmode
  have hextra : extraBytes (recordOfWord s m cls).src = (operandsOfWord cls s.mem.instructionWord).1.extra :=
    readExtension_extra ..
  rw [hextra, readExtension_value ((hdst d hd).trans hmode), hsrc]
  obtain hnone | hword := extraOf_eq (operandsOfWord cls s.mem.instructionWord).1.mode
  · rw [hnone]
    rfl
  · rw [hword]
    rfl

/-- Settles O34: the operands that survive the Normalizer are those R70 step 9 filled, the source's word at offset 2, the
destination's after it. -/
theorem extensionWordsAreReadInOrder : Obligations.ExtensionWordsAreReadInOrder := by
  unfold Obligations.ExtensionWordsAreReadInOrder
  intro s r h
  obtain ⟨-, -, rfl⟩ | ⟨-, m, cls, -, -, rfl⟩ := h.record_cases
  · exact ⟨nofun, nofun⟩
  · obtain ⟨-, -, hsrc, hdst⟩ | ⟨-, hsrc, hdst⟩ := normalizeRecord_operands (recordOfWord s m cls)
    · rw [hsrc, hdst]
      exact ⟨nofun, nofun⟩
    · rw [hsrc, hdst]
      have hword : ∀ o : Operand, o.mode = .indexed ∨ o.mode = .symbolic ∨ o.mode = .absolute ∨ o.mode = .immediate →
          extraOf o.mode = 2 := fun o hmode => by rw [fourModesTakeAnExtensionWord, if_pos hmode]
      exact ⟨fun o ho hmode => src_value_recordOfWord ho (hword o hmode),
        fun o ho hmode => dst_value_recordOfWord ho (hword o hmode)⟩

end Sys2Proof
end

section
/-! PROOFS. Decoder and encoder (30_encoding.md R45 to R53, R57, R59, R67): each row of the three formats is laid down and
read back by one argument, from what the row's encoding and its place in the opcode map are. -/

namespace Sys2Proof

open Sys2Proof.Machine

/-- The instruction word is read from its two bytes, whatever follows them. -/
theorem decode_instructionBytes (ir : Word) (bytes : List Byte) :
    decode (instructionBytes ir ++ bytes) = decodeWord ir bytes := by
  obtain ⟨b0, b1, hbytes, hword⟩ := instructionBytes_eq ir
  rw [hbytes, ← hword]
  rfl

/-- `i`, followed by `rest`, is what the word `ir` and the bytes after it encode. -/
def Encodes (ir : Word) (bytes : List Byte) (i : Instr) (rest : List Byte) : Prop :=
  encodeWord i = ir ∧ bytes = (extensionWords i).flatMap littleBytes ++ rest ∧ i.wf = true

/-- A row of the two-operand format under the opcode nibble `op`: its place in the opcode map, and its encoding. -/
structure TwoRow (op : BitVec 4) (row : Width → SrcField → DstField → Instr) : Prop where
  decodes : ∀ ir bytes, slice ir 12 4 = op → decodeByNibble ir bytes = decodeTwo ir bytes row
  word : ∀ w src dst, encodeWord (row w src dst) = encodeTwo op w src dst
  extensions : ∀ w src dst, extensionWords (row w src dst) = src.ext.toList ++ dst.ext.toList
  operandsOk : ∀ w src dst, (row w src dst).operandsOk = (src.ok && dst.ok)
  rowOk : ∀ w src dst, encodeWord (row w src dst) ≠ config.retWord → (row w src dst).rowOk = true

/-- A row of the one-operand format under the selector `sel`: its place in the opcode map, and its encoding. -/
structure OneRow (sel : BitVec 3) (row : BitVec 2 → Width → SrcField → Instr) : Prop where
  decodes : ∀ ir bytes, slice ir 12 4 = 1#4 → slice ir 7 3 = sel → decodeByNibble ir bytes = decodeOne ir bytes row
  word : ∀ u w src, encodeWord (row u w src) = encodeOne sel u w src
  extensions : ∀ u w src, extensionWords (row u w src) = src.ext.toList
  operandsOk : ∀ u w src, (row u w src).operandsOk = src.ok
  rowOk : ∀ u w src, encodeWord (row u w src) ≠ config.retWord → (row u w src).rowOk = true

/-- A row of the branch-only format under the opcode nibble `op` and the selector `sel`: its place in the opcode map, and
its encoding. -/
structure BranchRow (op : BitVec 4) (sel : BitVec 2) (row : BitVec 10 → Instr) : Prop where
  decodes : ∀ ir bytes, slice ir 12 4 = op → slice ir 10 2 = sel →
    decodeByNibble ir bytes = .ok (row (slice ir 0 10), bytes)
  word : ∀ off10, encodeWord (row off10) = encodeBranch op sel off10
  extensions : ∀ off10, extensionWords (row off10) = []
  operandsOk : ∀ off10, (row off10).operandsOk = true
  rowOk : ∀ off10, encodeWord (row off10) ≠ config.retWord → (row off10).rowOk = true

/-! ### What a row reads back, and what it lays down -/

section Rows

variable {op : BitVec 4} {sel1 : BitVec 3} {sel2 : BitVec 2} {two : Width → SrcField → DstField → Instr}
  {one : BitVec 2 → Width → SrcField → Instr} {branch : BitVec 10 → Instr} {ir : Word}
  {bytes rest : List Byte} {i : Instr}

/-- A word other than the return word is read back by the opcode map. -/
theorem decode_encodeBytes_of_opcodeMap (hwf : i.wf = true) (hi : i ≠ .ret)
    (h : decodeByNibble (encodeWord i) ((extensionWords i).flatMap littleBytes ++ rest) = .ok (i, rest)) :
    decode (encodeBytes i ++ rest) = .ok (i, rest) := by
  rw [encodeBytes, List.append_assoc, decode_instructionBytes, decodeWord,
    if_neg (Laws.EncodedLength.ne_retWord i hwf hi), h]

theorem Instr.operandsOk_of_wf (hwf : i.wf = true) : i.operandsOk = true := (Bool.and_eq_true_iff.1 hwf).1

theorem TwoRow.decode_encodeBytes (h : TwoRow op two) {w : Width} {src : SrcField} {dst : DstField}
    (hwf : (two w src dst).wf = true) (hi : two w src dst ≠ .ret) :
    decode (encodeBytes (two w src dst) ++ rest) = .ok (two w src dst, rest) := by
  have hok := Instr.operandsOk_of_wf hwf
  rw [h.operandsOk, Bool.and_eq_true] at hok
  obtain ⟨hsrc, hdst⟩ := hok
  apply decode_encodeBytes_of_opcodeMap hwf hi
  rw [h.word, h.extensions, h.decodes _ _ (slice_opcode_encodeTwo ..), decodeTwo_ok]
  exact ⟨w, src, dst, rfl, hasTwoFields_encodeTwo op w src dst, hsrc, hdst, by simp [extBytes]⟩

theorem OneRow.decode_encodeBytes (h : OneRow sel1 one) {u : BitVec 2} {w : Width} {src : SrcField}
    (hwf : (one u w src).wf = true) (hi : one u w src ≠ .ret) :
    decode (encodeBytes (one u w src) ++ rest) = .ok (one u w src, rest) := by
  have hsrc := Instr.operandsOk_of_wf hwf
  rw [h.operandsOk] at hsrc
  apply decode_encodeBytes_of_opcodeMap hwf hi
  rw [h.word, h.extensions, h.decodes _ _ (slice_opcode_encodeOne ..) (slice_sel_encodeOne ..), decodeOne_ok]
  exact ⟨u, w, src, rfl, hasOneFields_encodeOne sel1 u w src, hsrc, rfl⟩

theorem BranchRow.decode_encodeBytes (h : BranchRow op sel2 branch) {off10 : BitVec 10}
    (hwf : (branch off10).wf = true) (hi : branch off10 ≠ .ret) :
    decode (encodeBytes (branch off10) ++ rest) = .ok (branch off10, rest) := by
  apply decode_encodeBytes_of_opcodeMap hwf hi
  rw [h.word, h.extensions, h.decodes _ _ (slice_opcode_encodeBranch ..) (slice_sel_encodeBranch ..),
    slice_off10_encodeBranch]
  rfl

theorem TwoRow.encodes (h : TwoRow op two) (hret : ir ≠ config.retWord) (hop : slice ir 12 4 = op)
    (hdecode : decodeByNibble ir bytes = .ok (i, rest)) : Encodes ir bytes i rest := by
  rw [h.decodes ir bytes hop, decodeTwo_ok] at hdecode
  obtain ⟨w, src, dst, rfl, hfields, hsrc, hdst, rfl⟩ := hdecode
  have hword : encodeWord (two w src dst) = ir :=
    (h.word w src dst).trans (encodeTwo_of_fields ir op w src dst hop hfields)
  have hok : (two w src dst).operandsOk = true := by rw [h.operandsOk, hsrc, hdst]; rfl
  refine ⟨hword, by simp [h.extensions, extBytes], ?_⟩
  rw [Instr.wf, hok, h.rowOk w src dst (hword.trans_ne hret)]
  rfl

theorem OneRow.encodes (h : OneRow sel1 one) (hret : ir ≠ config.retWord) (hop : slice ir 12 4 = 1#4)
    (hsel : slice ir 7 3 = sel1) (hdecode : decodeByNibble ir bytes = .ok (i, rest)) : Encodes ir bytes i rest := by
  rw [h.decodes ir bytes hop hsel, decodeOne_ok] at hdecode
  obtain ⟨u, w, src, rfl, hfields, hsrc, rfl⟩ := hdecode
  have hword : encodeWord (one u w src) = ir :=
    (h.word u w src).trans (encodeOne_of_fields ir sel1 u w src hop hsel hfields)
  have hok : (one u w src).operandsOk = true := (h.operandsOk u w src).trans hsrc
  refine ⟨hword, by rw [h.extensions]; rfl, ?_⟩
  rw [Instr.wf, hok, h.rowOk u w src (hword.trans_ne hret)]
  rfl

theorem BranchRow.encodes (h : BranchRow op sel2 branch) (hret : ir ≠ config.retWord) (hop : slice ir 12 4 = op)
    (hsel : slice ir 10 2 = sel2) (hdecode : decodeByNibble ir bytes = .ok (i, rest)) : Encodes ir bytes i rest := by
  rw [h.decodes ir bytes hop hsel] at hdecode
  simp only [Except.ok.injEq, Prod.mk.injEq] at hdecode
  obtain ⟨rfl, rfl⟩ := hdecode
  have hword : encodeWord (branch (slice ir 0 10)) = ir := by
    rw [h.word, encodeBranch, ← hop, ← hsel]
    exact word_eq_branch_fields ir
  refine ⟨hword, by rw [h.extensions]; rfl, ?_⟩
  rw [Instr.wf, h.operandsOk, h.rowOk _ (hword.trans_ne hret)]
  rfl

end Rows

/-! ### The rows of the opcode map -/

/-- The ten two-operand rows whose words no rewrite takes. -/
theorem twoRow_plain : ∀ p ∈ [(5#4, Instr.add), (6#4, .addc), (7#4, .subc), (8#4, .sub), (9#4, .cmp), (10#4, .dadd),
    (11#4, .bit), (12#4, .bic), (14#4, .xor), (15#4, .and)], TwoRow p.1 p.2 := by
  simp only [List.forall_mem_cons, List.not_mem_nil, false_imp_iff, implies_true, and_true]
  refine ⟨?_, ?_, ?_, ?_, ?_, ?_, ?_, ?_, ?_, ?_⟩ <;>
  · exact
      { decodes := fun ir bytes h => by rw [decodeByNibble, h]; rfl
        word := fun _ _ _ => rfl
        extensions := fun _ _ _ => rfl
        operandsOk := fun _ _ _ => rfl
        rowOk := fun _ _ _ => decide_eq_true }

/-- The two rows of a `mov` word. -/
theorem movRow_cases (w : Width) (src : SrcField) (dst : DstField) :
    (∃ dmode dext, dst = ⟨.pc, dmode, dext⟩ ∧ movRow w src dst = .br w src dmode dext) ∨
      movRow w src dst = .mov w src dst := by
  obtain ⟨reg, dmode, dext⟩ := dst
  unfold movRow
  split
  · next hreg => exact .inl ⟨dmode, dext, by rw [show reg = .pc from hreg], rfl⟩
  · exact .inr rfl

/-- The two rows of a `bis` word. -/
theorem bisRow_cases (w : Width) (src : SrcField) (dst : DstField) :
    (∃ sreg smode dmode dext, src = ⟨sreg, smode, some config.dintSrcValue⟩ ∧ dst = ⟨.sr, dmode, dext⟩ ∧
      bisRow w src dst = .dint w sreg smode dmode dext) ∨
      bisRow w src dst = .bis w src dst := by
  obtain ⟨sreg, smode, sext⟩ := src
  obtain ⟨dreg, dmode, dext⟩ := dst
  unfold bisRow
  split
  · next hform =>
    obtain ⟨rfl, rfl⟩ := hform
    exact .inl ⟨sreg, smode, dmode, dext, rfl, rfl, rfl⟩
  · exact .inr rfl

/-- The words of opcode nibble 4. -/
theorem twoRow_movRow : TwoRow 4#4 movRow where
  decodes ir bytes h := by rw [decodeByNibble, h]; rfl
  word w src dst := by obtain ⟨dmode, dext, rfl, heq⟩ | heq := movRow_cases w src dst <;> rw [heq] <;> rfl
  extensions w src dst := by obtain ⟨dmode, dext, rfl, heq⟩ | heq := movRow_cases w src dst <;> rw [heq] <;> rfl
  operandsOk w src dst := by obtain ⟨dmode, dext, rfl, heq⟩ | heq := movRow_cases w src dst <;> rw [heq] <;> rfl
  rowOk w src dst := by
    obtain ⟨dmode, dext, rfl, heq⟩ | heq := movRow_cases w src dst <;> rw [heq]
    · exact decide_eq_true
    · simp [Instr.rowOk, heq]

/-- The words of opcode nibble 13. -/
theorem twoRow_bisRow : TwoRow 13#4 bisRow where
  decodes ir bytes h := by rw [decodeByNibble, h]; rfl
  word w src dst := by
    obtain ⟨sreg, smode, dmode, dext, rfl, rfl, heq⟩ | heq := bisRow_cases w src dst <;> rw [heq] <;> rfl
  extensions w src dst := by
    obtain ⟨sreg, smode, dmode, dext, rfl, rfl, heq⟩ | heq := bisRow_cases w src dst <;> rw [heq] <;> rfl
  operandsOk w src dst := by
    obtain ⟨sreg, smode, dmode, dext, rfl, rfl, heq⟩ | heq := bisRow_cases w src dst <;> rw [heq] <;> rfl
  rowOk w src dst := by
    obtain ⟨sreg, smode, dmode, dext, rfl, rfl, heq⟩ | heq := bisRow_cases w src dst <;> rw [heq]
    · exact decide_eq_true
    · simp [Instr.rowOk, heq]

/-- The seven one-operand rows. -/
theorem oneRow : ∀ p ∈ [(0#3, Instr.rrc), (1#3, .swpb), (2#3, .rra), (3#3, .sxt), (4#3, .push), (5#3, .call),
    (6#3, .reti)], OneRow p.1 p.2 := by
  simp only [List.forall_mem_cons, List.not_mem_nil, false_imp_iff, implies_true, and_true]
  refine ⟨?_, ?_, ?_, ?_, ?_, ?_, ?_⟩ <;>
  · exact
      { decodes := fun ir bytes hop hsel => by rw [decodeByNibble, hop]; simp only [decodeOpcode1, hsel]; rfl
        word := fun _ _ _ => rfl
        extensions := fun _ _ _ => rfl
        operandsOk := fun _ _ _ => rfl
        rowOk := fun _ _ _ => decide_eq_true }

/-- The eight branch-only rows. -/
theorem branchRow : ∀ p ∈ [(2#4, 0#2, Instr.jnz), (2#4, 1#2, .jz), (2#4, 2#2, .jnc), (2#4, 3#2, .jc), (3#4, 0#2, .jn),
    (3#4, 1#2, .jge), (3#4, 2#2, .jl), (3#4, 3#2, .jmp)], BranchRow p.1 p.2.1 p.2.2 := by
  simp only [List.forall_mem_cons, List.not_mem_nil, false_imp_iff, implies_true, and_true]
  refine ⟨?_, ?_, ?_, ?_, ?_, ?_, ?_, ?_⟩ <;>
  · exact
      { decodes := fun ir bytes hop hsel => by
          rw [decodeByNibble, hop]
          simp only [branchOfOpcode2, branchOfOpcode3, hsel]
          rfl
        word := fun _ => rfl
        extensions := fun _ => rfl
        operandsOk := fun _ => rfl
        rowOk := fun _ => decide_eq_true }

/-! ### Both directions -/

/-- Settles O1: each instruction is read back by the format of its row (`TwoRow`, `OneRow`, `BranchRow`); the return word
by the fixed-word test, an invalid word by its opcode nibble and selector. -/
theorem decodeOfEncodeIsIdentity : Obligations.DecodeOfEncodeIsIdentity := by
  unfold Obligations.DecodeOfEncodeIsIdentity
  intro i rest hwf
  have hrow : i.rowOk = true := (Bool.and_eq_true_iff.1 hwf).2
  cases i with
  | ret => rfl
  | mov w src dst =>
    simp only [Instr.rowOk, Bool.and_eq_true, decide_eq_true_eq] at hrow
    have heq := hrow.1
    rw [← heq] at hwf ⊢
    exact twoRow_movRow.decode_encodeBytes hwf (by rw [heq]; nofun)
  | br w src dmode dext => exact twoRow_movRow.decode_encodeBytes (dst := ⟨.pc, dmode, dext⟩) hwf nofun
  | bis w src dst =>
    simp only [Instr.rowOk, Bool.and_eq_true, decide_eq_true_eq] at hrow
    have heq := hrow.1
    rw [← heq] at hwf ⊢
    exact twoRow_bisRow.decode_encodeBytes hwf (by rw [heq]; nofun)
  | dint w sreg smode dmode dext =>
    exact twoRow_bisRow.decode_encodeBytes (src := ⟨sreg, smode, some config.dintSrcValue⟩)
      (dst := ⟨.sr, dmode, dext⟩) hwf nofun
  | add => exact (twoRow_plain (5#4, .add) (by simp)).decode_encodeBytes hwf nofun
  | addc => exact (twoRow_plain (6#4, .addc) (by simp)).decode_encodeBytes hwf nofun
  | subc => exact (twoRow_plain (7#4, .subc) (by simp)).decode_encodeBytes hwf nofun
  | sub => exact (twoRow_plain (8#4, .sub) (by simp)).decode_encodeBytes hwf nofun
  | cmp => exact (twoRow_plain (9#4, .cmp) (by simp)).decode_encodeBytes hwf nofun
  | dadd => exact (twoRow_plain (10#4, .dadd) (by simp)).decode_encodeBytes hwf nofun
  | bit => exact (twoRow_plain (11#4, .bit) (by simp)).decode_encodeBytes hwf nofun
  | bic => exact (twoRow_plain (12#4, .bic) (by simp)).decode_encodeBytes hwf nofun
  | xor => exact (twoRow_plain (14#4, .xor) (by simp)).decode_encodeBytes hwf nofun
  | and => exact (twoRow_plain (15#4, .and) (by simp)).decode_encodeBytes hwf nofun
  | rrc => exact (oneRow (0#3, .rrc) (by simp)).decode_encodeBytes hwf nofun
  | swpb => exact (oneRow (1#3, .swpb) (by simp)).decode_encodeBytes hwf nofun
  | rra => exact (oneRow (2#3, .rra) (by simp)).decode_encodeBytes hwf nofun
  | sxt => exact (oneRow (3#3, .sxt) (by simp)).decode_encodeBytes hwf nofun
  | push => exact (oneRow (4#3, .push) (by simp)).decode_encodeBytes hwf nofun
  | call => exact (oneRow (5#3, .call) (by simp)).decode_encodeBytes hwf nofun
  | reti => exact (oneRow (6#3, .reti) (by simp)).decode_encodeBytes hwf nofun
  | jnz => exact (branchRow (2#4, 0#2, .jnz) (by simp)).decode_encodeBytes hwf nofun
  | jz => exact (branchRow (2#4, 1#2, .jz) (by simp)).decode_encodeBytes hwf nofun
  | jnc => exact (branchRow (2#4, 2#2, .jnc) (by simp)).decode_encodeBytes hwf nofun
  | jc => exact (branchRow (2#4, 3#2, .jc) (by simp)).decode_encodeBytes hwf nofun
  | jn => exact (branchRow (3#4, 0#2, .jn) (by simp)).decode_encodeBytes hwf nofun
  | jge => exact (branchRow (3#4, 1#2, .jge) (by simp)).decode_encodeBytes hwf nofun
  | jl => exact (branchRow (3#4, 2#2, .jl) (by simp)).decode_encodeBytes hwf nofun
  | jmp => exact (branchRow (3#4, 3#2, .jmp) (by simp)).decode_encodeBytes hwf nofun
  | invalidOpcode0 low =>
    apply decode_encodeBytes_of_opcodeMap hwf nofun
    simp only [decodeByNibble, encodeWord, slice_opcode_low, slice_low_low]
    rfl
  | invalidOpcode1Selector7 u low =>
    apply decode_encodeBytes_of_opcodeMap hwf nofun
    simp only [decodeByNibble, decodeOpcode1, encodeWord, slice_opcode_selector7, slice_sel_selector7,
      slice_unexamined_selector7, slice_low_selector7]
    rfl

section Converse

variable {ir : Word} {bytes rest : List Byte} {i : Instr}

/-- A word of opcode nibble 1 is one of the seven rows of the one-operand format, or that of the unmapped selector. -/
theorem encodes_of_opcode1 (hret : ir ≠ config.retWord) (hop : slice ir 12 4 = 1#4)
    (hdecode : decodeByNibble ir bytes = .ok (i, rest)) : Encodes ir bytes i rest := by
  generalize hsel : slice ir 7 3 = sel
  match sel with
  | 0#3 => exact (oneRow (0#3, .rrc) (by simp)).encodes hret hop hsel hdecode
  | 1#3 => exact (oneRow (1#3, .swpb) (by simp)).encodes hret hop hsel hdecode
  | 2#3 => exact (oneRow (2#3, .rra) (by simp)).encodes hret hop hsel hdecode
  | 3#3 => exact (oneRow (3#3, .sxt) (by simp)).encodes hret hop hsel hdecode
  | 4#3 => exact (oneRow (4#3, .push) (by simp)).encodes hret hop hsel hdecode
  | 5#3 => exact (oneRow (5#3, .call) (by simp)).encodes hret hop hsel hdecode
  | 6#3 => exact (oneRow (6#3, .reti) (by simp)).encodes hret hop hsel hdecode
  | 7#3 =>
    rw [decodeByNibble, hop] at hdecode
    simp only [decodeOpcode1, hsel] at hdecode
    obtain ⟨rfl, rfl⟩ := Prod.mk.inj (Except.ok.inj hdecode)
    have hword : encodeWord (.invalidOpcode1Selector7 (slice ir 10 2) (slice ir 0 7)) = ir := by
      rw [encodeWord, ← hop, ← hsel]
      exact word_eq_selector_fields ir
    exact ⟨hword, rfl, decide_eq_true (hword.trans_ne hret)⟩

/-- A word of opcode nibble 2 or 3 is one of the eight rows of the branch-only format. -/
theorem encodes_of_opcode2_or_3 (hret : ir ≠ config.retWord) (hop : slice ir 12 4 = 2#4 ∨ slice ir 12 4 = 3#4)
    (hdecode : decodeByNibble ir bytes = .ok (i, rest)) : Encodes ir bytes i rest := by
  generalize hsel : slice ir 10 2 = sel
  obtain hop | hop := hop
  · match sel with
    | 0#2 => exact (branchRow (2#4, 0#2, .jnz) (by simp)).encodes hret hop hsel hdecode
    | 1#2 => exact (branchRow (2#4, 1#2, .jz) (by simp)).encodes hret hop hsel hdecode
    | 2#2 => exact (branchRow (2#4, 2#2, .jnc) (by simp)).encodes hret hop hsel hdecode
    | 3#2 => exact (branchRow (2#4, 3#2, .jc) (by simp)).encodes hret hop hsel hdecode
  · match sel with
    | 0#2 => exact (branchRow (3#4, 0#2, .jn) (by simp)).encodes hret hop hsel hdecode
    | 1#2 => exact (branchRow (3#4, 1#2, .jge) (by simp)).encodes hret hop hsel hdecode
    | 2#2 => exact (branchRow (3#4, 2#2, .jl) (by simp)).encodes hret hop hsel hdecode
    | 3#2 => exact (branchRow (3#4, 3#2, .jmp) (by simp)).encodes hret hop hsel hdecode

/-- What the opcode map reads is what the word and the bytes after it encode. -/
theorem encodes_of_decodeByNibble (hret : ir ≠ config.retWord)
    (hdecode : decodeByNibble ir bytes = .ok (i, rest)) : Encodes ir bytes i rest := by
  generalize hop : slice ir 12 4 = op
  match op with
  | 0#4 =>
    rw [decodeByNibble, hop] at hdecode
    obtain ⟨rfl, rfl⟩ := Prod.mk.inj (Except.ok.inj hdecode)
    have hword : encodeWord (.invalidOpcode0 (slice ir 0 12)) = ir := by
      rw [encodeWord, ← hop]
      exact word_eq_low_fields ir
    exact ⟨hword, rfl, decide_eq_true (hword.trans_ne hret)⟩
  | 1#4 => exact encodes_of_opcode1 hret hop hdecode
  | 2#4 => exact encodes_of_opcode2_or_3 hret (.inl hop) hdecode
  | 3#4 => exact encodes_of_opcode2_or_3 hret (.inr hop) hdecode
  | 4#4 => exact twoRow_movRow.encodes hret hop hdecode
  | 5#4 => exact (twoRow_plain (5#4, .add) (by simp)).encodes hret hop hdecode
  | 6#4 => exact (twoRow_plain (6#4, .addc) (by simp)).encodes hret hop hdecode
  | 7#4 => exact (twoRow_plain (7#4, .subc) (by simp)).encodes hret hop hdecode
  | 8#4 => exact (twoRow_plain (8#4, .sub) (by simp)).encodes hret hop hdecode
  | 9#4 => exact (twoRow_plain (9#4, .cmp) (by simp)).encodes hret hop hdecode
  | 10#4 => exact (twoRow_plain (10#4, .dadd) (by simp)).encodes hret hop hdecode
  | 11#4 => exact (twoRow_plain (11#4, .bit) (by simp)).encodes hret hop hdecode
  | 12#4 => exact (twoRow_plain (12#4, .bic) (by simp)).encodes hret hop hdecode
  | 13#4 => exact twoRow_bisRow.encodes hret hop hdecode
  | 14#4 => exact (twoRow_plain (14#4, .xor) (by simp)).encodes hret hop hdecode
  | 15#4 => exact (twoRow_plain (15#4, .and) (by simp)).encodes hret hop hdecode
  | ⟨⟨n + 16, hn⟩⟩ => exact absurd hn (by omega)

end Converse

/-- Settles O2: the return word by the fixed-word test, every other word by the opcode map. -/
theorem encodeOfDecodeIsIdentity : Obligations.EncodeOfDecodeIsIdentity := by
  unfold Obligations.EncodeOfDecodeIsIdentity
  intro bytes i rest hdecode
  match bytes, hdecode with
  | b0 :: b1 :: tail, hdecode =>
    rw [decode, decodeWord] at hdecode
    split at hdecode
    · next hret =>
      obtain ⟨rfl, rfl⟩ := Prod.mk.inj (Except.ok.inj hdecode)
      have hbytes := instructionBytes_instructionWord b0 b1
      rw [hret] at hbytes
      exact ⟨congrArg (· ++ tail) hbytes.symm, rfl⟩
    · next hret =>
      obtain ⟨hword, rfl, hwf⟩ := encodes_of_decodeByNibble hret hdecode
      refine ⟨?_, hwf⟩
      rw [encodeBytes, hword, instructionBytes_instructionWord, List.append_assoc]
      rfl

end Sys2Proof
end

section
/-! PROOFS. The opcode table (30_encoding.md R68): a priority-1 row looks at the opcode nibble and the two selectors only,
and the row that matches a word is that of the instruction the word encodes (R67 for the three emulated rows). -/

namespace Sys2Proof

open Sys2Proof.Machine

/-! ### Words and masks -/

/-- The mask 0xF000 keeps the opcode nibble. -/
theorem and_opcodeMask (ir : Word) : ir &&& 0xF000#16 = slice ir 12 4 ++ 0#12 := by
  unfold slice; apply BitVec.eq_of_getLsbD_eq; intro i hi
  simp only [BitVec.getLsbD_append, BitVec.getLsbD_extractLsb', BitVec.getLsbD_and]
  interval_cases i <;> simp

/-- The mask 0xFC00 keeps the opcode nibble and the selector of opcodes 2 and 3. -/
theorem and_branchMask (ir : Word) : ir &&& 0xFC00#16 = slice ir 12 4 ++ slice ir 10 2 ++ 0#10 := by
  unfold slice; apply BitVec.eq_of_getLsbD_eq; intro i hi
  simp only [BitVec.getLsbD_append, BitVec.getLsbD_extractLsb', BitVec.getLsbD_and]
  interval_cases i <;> simp

/-- The mask 0xFF80 keeps the opcode nibble and both selectors. -/
theorem and_tableMask (ir : Word) : ir &&& 0xFF80#16 = slice ir 12 4 ++ slice ir 10 2 ++ slice ir 7 3 ++ 0#7 := by
  unfold slice; apply BitVec.eq_of_getLsbD_eq; intro i hi
  simp only [BitVec.getLsbD_append, BitVec.getLsbD_extractLsb', BitVec.getLsbD_and]
  interval_cases i <;> simp

/-- The mask 0xF00F keeps the opcode nibble and the destination register. -/
theorem and_rewriteMask (ir : Word) : ir &&& 0xF00F#16 = slice ir 12 4 ++ 0#8 ++ slice ir 0 4 := by
  unfold slice; apply BitVec.eq_of_getLsbD_eq; intro i hi
  simp only [BitVec.getLsbD_append, BitVec.getLsbD_extractLsb', BitVec.getLsbD_and]
  interval_cases i <;> simp

/-- The mask and match of the row `br` say the opcode nibble and the destination register. -/
theorem and_rewriteMask_eq_br_iff (ir : Word) :
    ir &&& 0xF00F#16 = 0x4000#16 ↔ slice ir 12 4 = 4#4 ∧ slice ir 0 4 = 0#4 := by
  rw [and_rewriteMask]
  generalize slice ir 12 4 = opcode
  generalize slice ir 0 4 = dreg
  revert opcode dreg
  decide

/-- The mask and match of the row `dint` say the opcode nibble and the destination register. -/
theorem and_rewriteMask_eq_dint_iff (ir : Word) :
    ir &&& 0xF00F#16 = 0xD002#16 ↔ slice ir 12 4 = 13#4 ∧ slice ir 0 4 = 2#4 := by
  rw [and_rewriteMask]
  generalize slice ir 12 4 = opcode
  generalize slice ir 0 4 = dreg
  revert opcode dreg
  decide

/-! ### One row for each word -/

/-- No row of priority 1 looks at another bit than those of the opcode nibble and the two selectors. -/
theorem matchesWord_and_tableMask {r : TableRow} (hr : r ∈ priorityOneRows) (ir : Word) :
    r.matchesWord (ir &&& 0xFF80#16) = r.matchesWord ir := by
  have hmask : ∀ q ∈ priorityOneRows, 0xFF80#16 &&& q.mask = q.mask := by
    simp [priorityOneRows, twoOperandRows, oneOperandRows, branchOnlyRows, invalidRows]
  rw [TableRow.matchesWord, TableRow.matchesWord, BitVec.and_assoc, hmask r hr]

/-- Settles O3: the rows look at nine bits of the word, and on each of their values one row matches. -/
theorem everyWordMatchesOneTableRow : Obligations.EveryWordMatchesOneTableRow := by
  unfold Obligations.EveryWordMatchesOneTableRow
  intro ir
  rw [List.filter_congr fun r hr => (matchesWord_and_tableMask hr ir).symm, and_tableMask]
  generalize slice ir 12 4 = opcode
  generalize slice ir 10 2 = sel2
  generalize slice ir 7 3 = sel1
  revert opcode sel2 sel1
  decide

/-- The word matches one row of priority 1, and `name` is that row's. -/
def MatchesRow (ir : Word) (name : String) : Prop :=
  (priorityOneRows.filter fun r => r.matchesWord ir).map TableRow.mnemonic = [name]

/-- A row of priority 1 that matches a word is the only one. -/
theorem matchesRow_of_mem {r : TableRow} {ir : Word} (hr : r ∈ priorityOneRows) (hmatch : ir &&& r.mask = r.pattern) :
    MatchesRow ir r.mnemonic := by
  obtain ⟨q, hq⟩ := List.length_eq_one_iff.1 (everyWordMatchesOneTableRow ir)
  have hmem : r ∈ priorityOneRows.filter fun r => r.matchesWord ir := List.mem_filter.2 ⟨hr, decide_eq_true hmatch⟩
  rw [hq, List.mem_singleton] at hmem
  rw [MatchesRow, hq, hmem]
  rfl

/-- A row of the two-operand family matches the words of its opcode nibble. -/
theorem matchesRow_encodeTwo {name : String} {op : BitVec 4} {w : Width} {src : SrcField} {dst : DstField}
    (hrow : ⟨name, op ++ 0#12, 0xF000, 1⟩ ∈ twoOperandRows) : MatchesRow (encodeTwo op w src dst) name := by
  apply matchesRow_of_mem (r := ⟨name, op ++ 0#12, 0xF000, 1⟩)
    (List.mem_append_left _ hrow)
  exact (and_opcodeMask _).trans (by rw [slice_opcode_encodeTwo])

/-- A row of the one-operand family matches the words of its selector. -/
theorem matchesRow_encodeOne {name : String} {sel : BitVec 3} {u : BitVec 2} {w : Width} {src : SrcField}
    (hrow : ⟨name, 1#4 ++ 0#2 ++ sel ++ 0#7, 0xF380, 1⟩ ∈ oneOperandRows) :
    MatchesRow (encodeOne sel u w src) name := by
  apply matchesRow_of_mem (r := ⟨name, 1#4 ++ 0#2 ++ sel ++ 0#7, 0xF380, 1⟩)
    (List.mem_append_right _ (List.mem_append_left _ hrow))
  exact (and_selectorMask _).trans (by rw [slice_opcode_encodeOne, slice_sel_encodeOne])

/-- A row of the branch-only family matches the words of its opcode nibble and selector. -/
theorem matchesRow_encodeBranch {name : String} {op : BitVec 4} {sel : BitVec 2} {off10 : BitVec 10}
    (hrow : ⟨name, op ++ sel ++ 0#10, 0xFC00, 1⟩ ∈ branchOnlyRows) :
    MatchesRow (encodeBranch op sel off10) name := by
  apply matchesRow_of_mem (r := ⟨name, op ++ sel ++ 0#10, 0xFC00, 1⟩)
    (List.mem_append_right _ (List.mem_append_right _ (List.mem_append_left _ hrow)))
  exact (and_branchMask _).trans (by rw [slice_opcode_encodeBranch, slice_sel_encodeBranch])

/-- Every word an instruction encodes matches the row of the instruction, or of what an emulated one is made of. -/
theorem matchesRow_encodeWord (i : Instr) : MatchesRow (encodeWord i) (nativeRowName i) := by
  cases i with
  | ret => exact matchesRow_of_mem (r := ⟨"mov", 0x4000, 0xF000, 1⟩) (by simp [priorityOneRows, twoOperandRows]) rfl
  | mov | add | addc | subc | sub | cmp | dadd | bit | bic | bis | xor | and =>
    exact matchesRow_encodeTwo (by simp [twoOperandRows, nativeRowName, rowName])
  | br | dint => exact matchesRow_encodeTwo (by simp [twoOperandRows, nativeRowName])
  | rrc | swpb | rra | sxt | push | call | reti =>
    exact matchesRow_encodeOne (by simp [oneOperandRows, nativeRowName, rowName])
  | jnz | jz | jnc | jc | jn | jge | jl | jmp =>
    exact matchesRow_encodeBranch (by simp [branchOnlyRows, nativeRowName, rowName])
  | invalidOpcode0 low =>
    apply matchesRow_of_mem (r := ⟨"invalid__opcode_0", 0x0000, 0xF000, 1⟩) (by simp [priorityOneRows, invalidRows])
    exact (and_opcodeMask _).trans (by rw [encodeWord, slice_opcode_low]; rfl)
  | invalidOpcode1Selector7 u low =>
    apply matchesRow_of_mem (r := ⟨"invalid__opcode_1_selector_7", 0x1380, 0xF380, 1⟩)
      (by simp [priorityOneRows, invalidRows])
    exact (and_selectorMask _).trans (by rw [encodeWord, slice_opcode_selector7, slice_sel_selector7]; rfl)

/-! ### The emulated rows -/

theorem rowName_eq_ret_iff (i : Instr) : rowName i = "ret" ↔ i = .ret := by
  cases i <;> simp [rowName]

/-- Only `ret` is written with the return word. -/
theorem encodeWord_eq_retWord_iff {i : Instr} (hwf : i.wf = true) : encodeWord i = config.retWord ↔ i = .ret := by
  constructor
  · exact fun hword => Classical.byContradiction fun hi => Laws.EncodedLength.ne_retWord i hwf hi hword
  · rintro rfl
    rfl

/-- A `mov` is not written with destination register `pc`: that is `br`. -/
theorem dst_ne_pc_of_wf {w : Width} {src : SrcField} {dst : DstField} (hwf : (Instr.mov w src dst).wf = true) :
    dst.reg ≠ .pc := by
  intro hpc
  simp [Instr.wf, Instr.rowOk, movRow, hpc] at hwf

theorem regIndex_eq_zero_iff (r : Reg) : regIndex r = 0#4 ↔ r = .pc := by
  cases r <;> decide

/-- `br` is the row of the words of the rewrite's mask and match, save the return word. -/
theorem rowName_eq_br_iff {i : Instr} (hwf : i.wf = true) :
    rowName i = "br" ↔ encodeWord i &&& 0xF00F#16 = 0x4000#16 ∧ encodeWord i ≠ config.retWord := by
  rw [and_rewriteMask_eq_br_iff]
  constructor
  · intro hname
    cases i with
    | br w src dmode dext =>
      exact ⟨⟨slice_opcode_encodeTwo .., slice_dreg_encodeTwo ..⟩, Laws.EncodedLength.ne_retWord _ hwf nofun⟩
    | _ => simp [rowName] at hname
  · rintro ⟨⟨hop, hdreg⟩, hret⟩
    cases i with
    | br w src dmode dext => rfl
    | ret => exact absurd rfl hret
    | mov w src dst =>
      rw [encodeWord, slice_dreg_encodeTwo, regIndex_eq_zero_iff] at hdreg
      exact absurd hdreg (dst_ne_pc_of_wf hwf)
    | _ => simp [encodeWord] at hop

/-- `dint` is written with a word of the rewrite's mask and match. -/
theorem and_rewriteMask_of_rowName_dint {i : Instr} (hname : rowName i = "dint") :
    encodeWord i &&& 0xF00F#16 = 0xD002#16 := by
  rw [and_rewriteMask_eq_dint_iff]
  cases i with
  | dint w sreg smode dmode dext => exact ⟨slice_opcode_encodeTwo .., slice_dreg_encodeTwo ..⟩
  | _ => simp [rowName] at hname

/-- Settles O4: the word is that of the well-formed instruction read (`encodeOfDecodeIsIdentity`). -/
theorem decoderAgreesWithTheOpcodeTable : Obligations.DecoderAgreesWithTheOpcodeTable := by
  unfold Obligations.DecoderAgreesWithTheOpcodeTable
  intro b0 b1 tail i rest hdecode
  obtain ⟨hbytes, hwf⟩ := encodeOfDecodeIsIdentity _ i rest hdecode
  have hword : instructionWord b0 b1 = encodeWord i := by
    obtain ⟨c0, c1, hsplit, hc⟩ := instructionBytes_eq (encodeWord i)
    simp only [encodeBytes, hsplit, List.cons_append, List.cons.injEq] at hbytes
    obtain ⟨rfl, rfl, -⟩ := hbytes
    exact hc
  rw [hword]
  exact ⟨matchesRow_encodeWord i, (rowName_eq_ret_iff i).trans (encodeWord_eq_retWord_iff hwf).symm,
    rowName_eq_br_iff hwf, and_rewriteMask_of_rowName_dint⟩

/-- Settles O5: each word of bytes is decoded by evaluation. -/
theorem wordsOfEachFamilyDecode : Obligations.WordsOfEachFamilyDecode := by
  unfold Obligations.WordsOfEachFamilyDecode
  exact ⟨rfl, rfl, rfl, rfl, rfl, rfl, rfl, rfl⟩

end Sys2Proof
end

section
/-! PROOFS. The invariants of a returned record (10_state.md R16, R19, R20): the operands of a word are well-formed, so
the record it assembles is, and the Normalizer keeps that. -/

namespace Sys2Proof

open Sys2Proof.Machine

theorem Machine.Record.wf_iff (r : Record) :
    r.wf = true ↔ r.cls = r.mnemonic.recordClass ∧ operandsFitClass r.cls r.src r.dst = true ∧ lengthFits r = true ∧
      (r.emulated = true ↔ r.mnemonic = .ret ∨ r.mnemonic = .br ∨ r.mnemonic = .dint) ∧
      (r.mnemonic = .br → r.dst.bind Operand.reg = some .pc) := by
  have hemulated : ∀ (b : Bool) (p : Prop) [Decidable p], b = decide p ↔ (b = true ↔ p) := by
    intro b p _
    cases b <;> simp
  simp only [Record.wf, Bool.and_eq_true, Bool.or_eq_true, decide_eq_true_eq, hemulated, and_assoc, imp_iff_not_or, ne_eq]

/-! ### Operands of a word -/

theorem isWordValue_toNat (x : Word) : isWordValue (some (x.toNat : Int)) = true := by
  have hlt := x.isLt
  simp only [isWordValue, Bool.and_eq_true, decide_eq_true_eq]
  omega

theorem isOffsetValue_sext10 (v : BitVec 10) : isOffsetValue (some (sext10 v)) = true := by
  have hle : -512 ≤ v.toInt := BitVec.le_toInt v
  have hlt : v.toInt < 512 := BitVec.toInt_lt
  simp only [isOffsetValue, sext10_eq_toInt, Bool.and_eq_true, decide_eq_true_eq]
  omega

section Operands

variable (buf : Memory) (off : Nat) (w : Width) (reg : Reg)

/-- Filled from the buffer, an operand with a register has a value of its mode's column. -/
theorem valueInColumn_readExtension {m : AddrMode} (hm : m ≠ .pcRelativeOffset) :
    valueInColumn m (readExtension buf off (registerOperand w reg m)).value = true := by
  cases m with
  | indexed | symbolic | immediate | absolute => exact isWordValue_toNat _
  | pcRelativeOffset => exact absurd rfl hm
  | _ => rfl

theorem reinterpretSource_ne_pcRelativeOffset (raw : RawSrcMode) : reinterpretSource reg raw ≠ .pcRelativeOffset := by
  cases reg <;> cases raw <;> nofun

theorem reinterpretDestination_ne_pcRelativeOffset (raw : RawDstMode) :
    reinterpretDestination reg raw ≠ .pcRelativeOffset := by
  cases reg <;> cases raw <;> nofun

theorem sourceRegInColumn_reinterpretSource (raw : RawSrcMode) :
    sourceRegInColumn (reinterpretSource reg raw) (some reg) = true := by
  cases reg <;> cases raw <;> rfl

theorem destinationRegInColumn_reinterpretDestination (raw : RawDstMode) :
    destinationRegInColumn (reinterpretDestination reg raw) (some reg) = true := by
  cases reg <;> cases raw <;> rfl

theorem wfSource_readExtension (raw : RawSrcMode) :
    (readExtension buf off (sourceOperand w reg raw)).wfSource = true := by
  rw [Operand.wfSource, readExtension_extra, readExtension_mode, readExtension_reg]
  simp only [sourceOperand, registerOperand, decide_true, Bool.true_and, Bool.and_true,
    sourceRegInColumn_reinterpretSource]
  exact valueInColumn_readExtension buf off w reg (reinterpretSource_ne_pcRelativeOffset reg raw)

theorem wfDestination_readExtension (raw : RawDstMode) :
    (readExtension buf off (destinationOperand w reg raw)).wfDestination = true := by
  rw [Operand.wfDestination, readExtension_extra, readExtension_mode, readExtension_reg]
  simp only [destinationOperand, registerOperand, decide_true, Bool.true_and, Bool.and_true,
    destinationRegInColumn_reinterpretDestination]
  exact valueInColumn_readExtension buf off w reg (reinterpretDestination_ne_pcRelativeOffset reg raw)

theorem wfSource_branchSource (off10 : BitVec 10) : (branchSource off10).wfSource = true :=
  (Bool.and_true _).trans (isOffsetValue_sext10 off10)

end Operands

/-! ### Records -/

section Records

variable {s : State} {m : Mnemonic} {cls : InstrClass}

/-- The operands of a word fit its class. -/
theorem operandsFitClass_recordOfWord (hcls : cls ≠ .none) :
    operandsFitClass cls (recordOfWord s m cls).src (recordOfWord s m cls).dst = true := by
  cases cls with
  | none => exact absurd rfl hcls
  | branchOnly => exact Bool.and_eq_true_iff.2 ⟨wfSource_branchSource _, rfl⟩
  | oneOperand =>
    simp only [operandsFitClass, recordOfWord, assembledRecord, operandsOfWord, reduceCtorEq, if_false, Option.map_none,
      Bool.and_eq_true, decide_eq_true_eq, readExtension_mode]
    exact ⟨wfSource_readExtension .., reinterpretSource_ne_pcRelativeOffset _ _⟩
  | twoOperand =>
    simp only [operandsFitClass, recordOfWord, assembledRecord, operandsOfWord, reduceCtorEq, if_false, if_true,
      Option.map_some, Bool.and_eq_true, decide_eq_true_eq, readExtension_mode, readExtension_width]
    exact ⟨⟨⟨wfSource_readExtension .., reinterpretSource_ne_pcRelativeOffset _ _⟩, wfDestination_readExtension ..⟩, rfl⟩

/-- The record assembled for a classified word is well-formed. -/
theorem wf_recordOfWord (hclass : classify s.mem.instructionWord = some (m, cls)) : (recordOfWord s m cls).wf = true := by
  obtain ⟨hrecord, hbr, hopcode, -⟩ := classify_eq_some _ _ _ hclass
  have hcls : cls ≠ .none := by
    rintro rfl
    simp at hopcode
  have hm : ¬(m = .ret ∨ m = .br ∨ m = .dint) := by
    rintro (rfl | rfl | rfl)
    · exact hcls hrecord.symm
    · exact hbr rfl
    · exact hcls hrecord.symm
  have hlength : lengthFits (recordOfWord s m cls) = true := by
    have hdint : (recordOfWord s m cls).mnemonic ≠ .dint := fun h => hm (.inr (.inr h))
    rw [lengthFits, if_neg hdint, length_recordOfWord cls]
    exact decide_eq_true rfl
  rw [Record.wf_iff]
  exact ⟨hrecord.symm, operandsFitClass_recordOfWord hcls, hlength, ⟨nofun, fun h => absurd h hm⟩,
    fun h => absurd h hbr⟩

/-- The value of the `dint` rule is no constant, so a source that has it took an extension word. -/
theorem extra_eq_two_of_value {o : Operand} (hwf : o.wfSource = true) (hmode : o.mode ≠ .pcRelativeOffset)
    (hvalue : o.value = some 0xF0) : o.extra = 2 := by
  simp only [Operand.wfSource, Bool.and_eq_true, decide_eq_true_eq, hvalue] at hwf
  obtain ⟨⟨hextra, hcolumn⟩, -⟩ := hwf
  rw [hextra]
  generalize o.mode = mode at hmode hcolumn
  cases mode with
  | indexed | symbolic | immediate | absolute => rfl
  | pcRelativeOffset => exact absurd rfl hmode
  | _ => exact absurd hcolumn (by decide)

/-- A `bis` record that becomes `dint` has length 4 or 6: its source took an extension word. -/
theorem length_of_isDintForm {r : Record} (hwf : r.wf = true) (hdint : isDintForm r = true) :
    r.length = 4 ∨ r.length = 6 := by
  obtain ⟨hmnemonic, -, hvalue⟩ := (isDintForm_iff r).1 hdint
  obtain ⟨address, m, cls, src, dst, length, emulated⟩ := r
  obtain rfl : m = .bis := hmnemonic
  obtain ⟨hcls, hfit, hlength, -⟩ := (Record.wf_iff _).1 hwf
  obtain rfl : cls = .twoOperand := hcls
  match src, dst, hfit with
  | some a, some b, hfit =>
    simp only [operandsFitClass, Bool.and_eq_true, decide_eq_true_eq] at hfit
    obtain ⟨⟨⟨ha, hmode⟩, hb⟩, -⟩ := hfit
    have hsrc : a.extra = 2 := extra_eq_two_of_value ha hmode hvalue
    have hdst : b.extra = 0 ∨ b.extra = 2 := by
      simp only [Operand.wfDestination, Bool.and_eq_true, decide_eq_true_eq] at hb
      rw [hb.1.1]
      exact extraOf_eq b.mode
    have hsum : length = 2 + a.extra + b.extra := of_decide_eq_true hlength
    show length = 4 ∨ length = 6
    omega

/-- The Normalizer keeps a record well-formed. -/
theorem wf_normalizeRecord {r : Record} (hwf : r.wf = true) : (normalizeRecord r).wf = true := by
  obtain ⟨hcls, hfit, hlength, hemulated, hbr⟩ := (Record.wf_iff r).1 hwf
  obtain ⟨hform, heq⟩ | ⟨-, hform, heq⟩ | ⟨-, -, heq⟩ := normalizeRecord_cases r <;> rw [heq]
  · obtain ⟨hmov, hpc⟩ := (isBranchForm_iff r).1 hform
    rw [Record.wf_iff]
    refine ⟨hcls.trans (by rw [hmov]; rfl), hfit, ?_, by simp, fun _ => hpc⟩
    rwa [lengthFits, if_neg (by rw [hmov]; decide)] at hlength
  · rw [Record.wf_iff]
    refine ⟨rfl, rfl, ?_, by simp, nofun⟩
    rw [lengthFits, if_pos rfl]
    simpa using length_of_isDintForm hwf hform
  · exact hwf

end Records

/-- Settles O13: the record of `ret` is well-formed, and every other is what the Normalizer makes of an assembled one. -/
theorem returnedRecordsAreWellFormed : Obligations.ReturnedRecordsAreWellFormed := by
  unfold Obligations.ReturnedRecordsAreWellFormed
  intro s r h
  obtain ⟨-, -, rfl⟩ | ⟨-, m, cls, hclass, -, rfl⟩ := h.record_cases
  · rfl
  · exact wf_normalizeRecord (wf_recordOfWord hclass)

/-- Settles O44: it is one of the invariants of a record. -/
theorem exactlyThreeMnemonicsAreEmulated : Obligations.ExactlyThreeMnemonicsAreEmulated := by
  unfold Obligations.ExactlyThreeMnemonicsAreEmulated
  intro s r h
  obtain ⟨-, -, -, hemulated, -⟩ := (Record.wf_iff r).1 (returnedRecordsAreWellFormed s r h)
  exact hemulated

end Sys2Proof
end

section
/-! PROOFS. The invariant of the state (10_state.md R16, 20_memory.md R30, 70_reset_and_hazards.md R171): the reset state
has it, a step keeps it, and so does what the caller does between calls. -/

namespace Sys2Proof

open Sys2Proof.Machine

/-- Settles O6: format by format, the decoder and its templates do what R70 does (`answers_decodeCall`). -/
theorem stepIsTheDecodeFunction : Obligations.StepIsTheDecodeFunction := by
  unfold Obligations.StepIsTheDecodeFunction
  exact answers_decodeCall

/-- The one state a step answers: the outcome is that of the decode function. -/
theorem eq_of_step {s t : State} (h : step s = .next t) :
    t = s.latchIr.setResult (decodeCall s.mem s.n s.address) :=
  Host.Outcome.next.inj (h.symm.trans (answers_decodeCall s))

/-- Whatever the decode function returns meets the invariants of a record. -/
theorem wf_decodeCall (s : State) : (decodeCall s.mem s.n s.address).wf = true := by
  have h := answers_decodeCall s
  generalize decodeCall s.mem s.n s.address = c at h
  cases c with
  | record r => exact returnedRecordsAreWellFormed s r h
  | failure f => rfl

/-- After a step the outputs are those of the call on the inputs held. -/
theorem holdsCurrentCall_of_step {s t : State} (h : step s = .next t) : HoldsCurrentCall t := by
  rw [eq_of_step h]
  exact ⟨rfl, rfl⟩

/-- Settles O10: a step leaves the buffer and sets the outputs of the inputs held, the result well-formed. -/
theorem stepKeepsTheInvariant : Obligations.StepKeepsTheInvariant := by
  unfold Obligations.StepKeepsTheInvariant
  rintro s t ⟨hwf, hbelow, -, -⟩ h
  have hcurrent := holdsCurrentCall_of_step h
  obtain ⟨hmem, hn, -⟩ := inputs_eq_of_step h
  refine ⟨by rw [hmem, hwf], by rw [hmem, hn, hbelow], .inr hcurrent, fun c hc => ?_⟩
  obtain rfl : decodeCall t.mem t.n t.address = c := Option.some.inj (hcurrent.2.symm.trans hc)
  exact wf_decodeCall t

/-- With a canonical buffer and no output, a state meets the invariant. -/
theorem stateInv_of_holdsNoCall {s : State} (hwf : s.mem.wf = true) (hbelow : s.mem.below s.n = true)
    (hnone : HoldsNoCall s) : StateInv s :=
  ⟨hwf, hbelow, .inl hnone, fun _ hc => absurd (hnone.2.symm.trans hc) nofun⟩

/-- Settles O11: an empty buffer is canonical, and no output stands. -/
theorem resetMeetsTheInvariant : Obligations.ResetMeetsTheInvariant := by
  unfold Obligations.ResetMeetsTheInvariant
  exact stateInv_of_holdsNoCall Memory.wf_nil (Memory.below_nil 0) ⟨rfl, rfl⟩

/-- Settles O14, field by field. -/
theorem resetHoldsNoCall : Obligations.ResetHoldsNoCall := by
  unfold Obligations.ResetHoldsNoCall
  exact ⟨rfl, rfl, rfl, rfl, rfl, rfl⟩

theorem holdsNoCall_present (s : State) (bytes : List Byte) (address : Int) :
    HoldsNoCall (s.present bytes address) := ⟨rfl, rfl⟩

theorem holdsNoCall_withFetchWord (s : State) (nbits w : Nat) : HoldsNoCall (s.withFetchWord nbits w) := ⟨rfl, rfl⟩

/-- A table word fills the fetch window. -/
theorem tableBytes_length (nbits w : Nat) : (tableBytes nbits w).length = config.maxLen := rfl

/-- Settles O12: both operations write inside the buffer and leave no output. -/
theorem callerKeepsTheInvariant : Obligations.CallerKeepsTheInvariant := by
  unfold Obligations.CallerKeepsTheInvariant
  constructor
  · intro s bytes address
    refine stateInv_of_holdsNoCall ?_ ?_ (holdsNoCall_present s bytes address)
    · exact Memory.wf_writeBytes bytes [] 0 Memory.wf_nil
    · exact Memory.below_writeBytes bytes [] 0 (Nat.zero_add _).le (Memory.below_nil _)
  · rintro s nbits w ⟨hwf, hbelow, -, -⟩
    refine stateInv_of_holdsNoCall ?_ ?_ (holdsNoCall_withFetchWord s nbits w)
    · exact Memory.wf_writeBytes (tableBytes nbits w) s.mem 0 hwf
    · rw [State.withFetchWord, State.loadFirst_mem, State.loadFirst_n]
      refine Memory.below_writeBytes _ _ _ ?_ (Memory.below_mono (le_max_left ..) _ hbelow)
      rw [tableBytes_length, Nat.zero_add]
      exact le_max_right ..

/-- Settles O54: changed inputs leave no output, and a step sets those of the inputs held. -/
theorem newInputsHoldNoOutput : Obligations.NewInputsHoldNoOutput := by
  unfold Obligations.NewInputsHoldNoOutput
  exact ⟨fun s bytes address => ⟨holdsNoCall_present s bytes address, rfl⟩,
    fun s nbits w => ⟨holdsNoCall_withFetchWord s nbits w, rfl⟩, fun s t => holdsCurrentCall_of_step⟩

/-- Settles O51: the bytes written are the bytes read, and the window is the buffer, cut at `MAX_LEN`. -/
theorem presentedInputsAreSeen : Obligations.PresentedInputsAreSeen := by
  unfold Obligations.PresentedInputsAreSeen
  intro s bytes address
  refine ⟨rfl, rfl, fun k hk => ?_, State.window_present s bytes address⟩
  have hread := Memory.read_writeBytes bytes [] 0 k hk Memory.wf_nil
  rwa [Nat.zero_add] at hread

/-- The fetch window of a placed table word is its bytes. -/
theorem window_withFetchWord {s : State} (nbits w : Nat) (hwf : s.mem.wf = true) :
    (s.withFetchWord nbits w).window = tableBytes nbits w := by
  have hlength : (s.withFetchWord nbits w).window.length = config.maxLen := by
    rw [State.window_length, State.withFetchWord, State.loadFirst_n, Nat.min_eq_right (le_max_right ..)]
  apply List.ext_getElem (hlength.trans (tableBytes_length nbits w).symm)
  intro k hk hk'
  have hread := Memory.read_writeBytes (tableBytes nbits w) s.mem 0 k hk' hwf
  rw [State.window_get _ k hk, State.withFetchWord, State.loadFirst_mem]
  rwa [Nat.zero_add] at hread

/-- Settles O52: the window is the word's bytes, and a step runs what they decode to. -/
theorem fetchWordRunsNext : Obligations.FetchWordRunsNext := by
  unfold Obligations.FetchWordRunsNext
  intro s nbits w i hwf htable
  rw [step, window_withFetchWord nbits w hwf]
  rw [decodeTableWord] at htable
  cases hdecode : decode (tableBytes nbits w) with
  | ok p =>
    rw [hdecode] at htable
    obtain rfl := Option.some.inj htable
    rfl
  | error e =>
    rw [hdecode] at htable
    cases htable

/-- The numbers of the status output tell the outcomes apart. -/
theorem statusCode_iff (c : CallResult) :
    (statusCode c = 0 ↔ ∃ r, c = .record r) ∧ (statusCode c = 1 ↔ c = .failure .truncatedInput) ∧
      (statusCode c = 2 ↔ c = .failure .invalidOpcode) := by
  obtain ⟨r, rfl⟩ | rfl | rfl := callResult_is_record_or_failure c <;> simp [statusCode, failureCode]

/-- Settles O53: after a step a result stands, and its number is the status. -/
theorem statusOutputNumbersTheOutcome : Obligations.StatusOutputNumbersTheOutcome := by
  unfold Obligations.StatusOutputNumbersTheOutcome
  intro s t h
  obtain ⟨c, rfl⟩ := step_eq_next h
  simpa [State.status] using statusCode_iff c

end Sys2Proof
end

section
/-! PROOFS. What each instruction completes with (41_two_operand.md, 42_one_operand.md, 43_branch_only.md, 44_emulated.md,
60_exceptions.md): the record of its family's template, by the spec's tables, or a failure; and what stays as it was. -/

namespace Sys2Proof

open Sys2Proof.Machine

/-! ### The templates, as the tables give them -/

/-- The two-operand template on well-formed operands is the Normalizer on the tables' record. -/
theorem twoOperand_eq_tabulatedTwo (m : Mnemonic) (w : Width) {src : SrcField} {dst : DstField} (s : State)
    (hsrc : src.ok = true) (hdst : dst.ok = true) :
    twoOperand m w src dst s =
      .next (s.setResult (.record (normalizeRecord (tabulatedTwo s.address m false w src dst)))) :=
  twoOperand_of_ok m w src dst s hsrc hdst

/-- A `mov` record whose destination register is `pc` becomes `br`, and no other changes. -/
theorem normalizeRecord_tabulatedTwo_mov (address : Int) (w : Width) (src : SrcField) (dst : DstField) :
    normalizeRecord (tabulatedTwo address .mov false w src dst) =
      if dst.reg = .pc then tabulatedTwo address .br true w src dst else tabulatedTwo address .mov false w src dst := by
  have hbranch : isBranchForm (tabulatedTwo address .mov false w src dst) = decide (dst.reg = .pc) := by
    rw [Bool.eq_iff_iff, isBranchForm_iff]
    simp [tabulatedTwo, tabulatedDestination, tabulatedOperand]
  have hdint : isDintForm (tabulatedTwo address .mov false w src dst) = false := rfl
  rw [normalizeRecord, hbranch, hdint]
  simp only [decide_eq_true_eq]
  rfl

/-- A well-formed source with an extension word is the operand decoded from its fields, the word its value. -/
theorem tabulatedSource_of_word (w : Width) {reg : Reg} {mode : RawSrcMode} {x : Word}
    (hsrc : SrcField.ok ⟨reg, mode, some x⟩ = true) :
    (sourceOperand w reg mode).extra = 2 ∧
      tabulatedSource w ⟨reg, mode, some x⟩ = { sourceOperand w reg mode with value := some (x.toNat : Int) } := by
  have hextra : extraOf (reinterpretSource reg mode) = 2 := by
    simpa [SrcField.ok] using hsrc
  have hfill := fillValue_source w ⟨reg, mode, some x⟩ hsrc
  rw [fillValue_of_word (sourceOperand w reg mode) x hextra] at hfill
  exact ⟨hextra, (Option.some.inj hfill).symm⟩

/-- A well-formed source without an extension word is the operand decoded from its fields. -/
theorem tabulatedSource_of_no_word (w : Width) {reg : Reg} {mode : RawSrcMode}
    (hsrc : SrcField.ok ⟨reg, mode, none⟩ = true) : tabulatedSource w ⟨reg, mode, none⟩ = sourceOperand w reg mode := by
  have hextra : extraOf (reinterpretSource reg mode) ≠ 2 := by
    simpa [SrcField.ok] using hsrc
  have hfill := fillValue_source w ⟨reg, mode, none⟩ hsrc
  rw [fillValue_of_none _ _ ((extraOf_eq _).resolve_right hextra)] at hfill
  exact (Option.some.inj hfill).symm

/-- No constant mode has the value of the `dint` rule. -/
theorem initialValue_ne_dintSrcValue (m : AddrMode) : initialValue m ≠ some 0xF0 := by
  cases m <;> decide

/-- A well-formed source has the value of the `dint` rule exactly when that is its extension word: no constant is it. -/
theorem tabulatedSource_value_eq_iff (w : Width) {src : SrcField} (hsrc : src.ok = true) :
    (tabulatedSource w src).value = some 0xF0 ↔ src.ext = some 0xF0#16 := by
  obtain ⟨reg, mode, ext⟩ := src
  cases ext with
  | none =>
    rw [tabulatedSource_of_no_word w hsrc]
    exact iff_of_false (initialValue_ne_dintSrcValue _) nofun
  | some x =>
    rw [(tabulatedSource_of_word w hsrc).2, Option.some.injEq, Option.some.injEq, ← BitVec.toNat_inj]
    norm_cast

/-- A `bis` record to `sr` whose source's extension word is 0x00f0 becomes `dint`, and no other changes. -/
theorem normalizeRecord_tabulatedTwo_bis (address : Int) (w : Width) {src : SrcField} (dst : DstField)
    (hsrc : src.ok = true) :
    normalizeRecord (tabulatedTwo address .bis false w src dst) =
      if dst.reg = .sr ∧ src.ext = some 0xF0#16 then
        bareRecord address .dint (tabulatedTwo address .bis false w src dst).length
      else tabulatedTwo address .bis false w src dst := by
  have hbranch : isBranchForm (tabulatedTwo address .bis false w src dst) = false := rfl
  have hdint : isDintForm (tabulatedTwo address .bis false w src dst) =
      decide (dst.reg = .sr ∧ src.ext = some 0xF0#16) := by
    rw [Bool.eq_iff_iff, isDintForm_iff, decide_eq_true_eq, ← tabulatedSource_value_eq_iff w hsrc]
    simp [tabulatedTwo, tabulatedDestination, tabulatedOperand]
  rw [normalizeRecord, hbranch, hdint]
  simp only [decide_eq_true_eq]
  rfl

/-! ### Records -/

/-- Settles O15: each row runs the template under a mnemonic the Normalizer leaves. -/
theorem twoOperandRecords : Obligations.TwoOperandRecords := by
  unfold Obligations.TwoOperandRecords
  intro row hrow w src dst s hsrc hdst
  have hexec : exec (row.1 w src dst) s = twoOperand row.2 w src dst s ∧ row.2 ≠ .mov ∧ row.2 ≠ .bis := by
    revert row
    simp only [List.forall_mem_cons, List.not_mem_nil, false_imp_iff, implies_true, and_true]
    refine ⟨?_, ?_, ?_, ?_, ?_, ?_, ?_, ?_, ?_, ?_⟩ <;> exact ⟨rfl, nofun, nofun⟩
  obtain ⟨hexec, hmov, hbis⟩ := hexec
  rw [hexec, twoOperand_eq_tabulatedTwo _ _ _ hsrc hdst, normalize_of_mnemonic _ hmov hbis]
  rfl

/-- Settles O16: `mov` runs the template, whose record the `br` rewrite renames for destination `pc`. -/
theorem movRecords : Obligations.MovRecords := by
  unfold Obligations.MovRecords
  intro w src dst s hsrc hdst
  have hexec : exec (.mov w src dst) s = twoOperand .mov w src dst s := rfl
  rw [hexec, twoOperand_eq_tabulatedTwo _ _ _ hsrc hdst, normalizeRecord_tabulatedTwo_mov]
  rfl

/-- Settles O21: `br` runs the template of the `mov` it is. -/
theorem brRecords : Obligations.BrRecords := by
  unfold Obligations.BrRecords
  intro w src dmode dext s hsrc hdst
  exact movRecords w src ⟨.pc, dmode, dext⟩ s hsrc hdst

/-- Settles O17: `bis` runs the template, whose record the `dint` rewrite replaces on its one form. -/
theorem bisRecords : Obligations.BisRecords := by
  unfold Obligations.BisRecords
  intro w src dst s hsrc hdst
  have hexec : exec (.bis w src dst) s = twoOperand .bis w src dst s := rfl
  rw [hexec, twoOperand_eq_tabulatedTwo _ _ _ hsrc hdst, normalizeRecord_tabulatedTwo_bis _ _ _ hsrc]
  rfl

/-- Settles O22: `dint` runs the template of the `bis` it is, whose source takes an extension word. -/
theorem dintRecords : Obligations.DintRecords := by
  unfold Obligations.DintRecords
  intro w sreg smode dmode dext s hok
  obtain ⟨hsrc, hdst⟩ := Bool.and_eq_true_iff.1 hok
  have hlength : (tabulatedTwo s.address .bis false w ⟨sreg, smode, some config.dintSrcValue⟩ ⟨.sr, dmode, dext⟩).length =
      if dmode = .registerDirect then 4 else 6 := by
    obtain ⟨hextra, heq⟩ := tabulatedSource_of_word w hsrc
    simp only [tabulatedTwo, heq, hextra]
    cases dmode <;> rfl
  rw [← hlength]
  exact bisRecords w _ _ s hsrc hdst

/-- Settles O18: each row runs the template, whatever the unexamined bits, under a mnemonic the Normalizer leaves. -/
theorem oneOperandRecords : Obligations.OneOperandRecords := by
  unfold Obligations.OneOperandRecords
  intro row hrow u w src s hsrc
  have hexec : exec (row.1 u w src) s = oneOperand row.2 w src s ∧ row.2 ≠ .mov ∧ row.2 ≠ .bis := by
    revert row
    simp only [List.forall_mem_cons, List.not_mem_nil, false_imp_iff, implies_true, and_true]
    refine ⟨?_, ?_, ?_, ?_, ?_, ?_, ?_⟩ <;> exact ⟨rfl, nofun, nofun⟩
  obtain ⟨hexec, hmov, hbis⟩ := hexec
  rw [hexec, oneOperand_of_ok _ w src s hsrc hmov hbis]
  rfl

/-- Settles O19: each row runs the template, whose value is the offset in two's complement (`sext10_eq_toInt`). -/
theorem branchOnlyRecords : Obligations.BranchOnlyRecords := by
  unfold Obligations.BranchOnlyRecords
  intro row hrow off10 s
  have hexec : exec (row.1 off10) s = branchOnly row.2 off10 s ∧ row.2 ≠ .mov ∧ row.2 ≠ .bis := by
    revert row
    simp only [List.forall_mem_cons, List.not_mem_nil, false_imp_iff, implies_true, and_true]
    refine ⟨?_, ?_, ?_, ?_, ?_, ?_, ?_, ?_⟩ <;> exact ⟨rfl, nofun, nofun⟩
  obtain ⟨hexec, hmov, hbis⟩ := hexec
  rw [hexec, branchOnly_eq _ off10 s hmov hbis, branchSource, sext10_eq_toInt]
  rfl

/-- Settles O20: `ret` returns its record as it is written. -/
theorem retRecord : Obligations.RetRecord := by
  unfold Obligations.RetRecord
  exact fun _ => rfl

/-! ### Failures -/

/-- Settles O23: both meanings take the failure and look at no bit. -/
theorem invalidRowsTakeInvalidOpcode : Obligations.InvalidRowsTakeInvalidOpcode := by
  unfold Obligations.InvalidRowsTakeInvalidOpcode
  exact ⟨fun _ _ => rfl, fun _ _ _ => rfl⟩

section Missing

variable (m : Mnemonic) (w : Width) {src : SrcField} {dst : DstField} (s : State)

theorem fillValue_source_of_missing (hextra : extraOf (reinterpretSource src.reg src.mode) = 2) (hext : src.ext = none) :
    fillValue (sourceOperand w src.reg src.mode) src.ext = none := by
  rw [hext]
  exact fillValue_of_missing _ hextra

theorem fillValue_destination_of_missing (hextra : extraOf (reinterpretDestination dst.reg dst.mode) = 2)
    (hext : dst.ext = none) : fillValue (destinationOperand w dst.reg dst.mode) dst.ext = none := by
  rw [hext]
  exact fillValue_of_missing _ hextra

/-- The one-operand template without the extension word it takes. -/
theorem oneOperand_of_missing (hextra : extraOf (reinterpretSource src.reg src.mode) = 2) (hext : src.ext = none) :
    oneOperand m w src s = .next (s.setResult (.failure .truncatedInput)) := by
  rw [oneOperand, fillValue_source_of_missing w hextra hext]
  rfl

/-- The two-operand template without an extension word it takes. -/
theorem twoOperand_of_missing
    (h : (extraOf (reinterpretSource src.reg src.mode) = 2 ∧ src.ext = none) ∨
      (extraOf (reinterpretDestination dst.reg dst.mode) = 2 ∧ dst.ext = none)) :
    twoOperand m w src dst s = .next (s.setResult (.failure .truncatedInput)) := by
  rw [twoOperand]
  obtain ⟨hextra, hext⟩ | ⟨hextra, hext⟩ := h
  · rw [fillValue_source_of_missing w hextra hext]
    rfl
  · rw [fillValue_destination_of_missing w hextra hext]
    cases fillValue (sourceOperand w src.reg src.mode) src.ext <;> rfl

end Missing

/-- Settles O24: the rows run the two templates; an indexed destination takes an extension word for `pc` and `sr` too. -/
theorem missingExtensionWordIsTruncated : Obligations.MissingExtensionWordIsTruncated := by
  unfold Obligations.MissingExtensionWordIsTruncated
  refine ⟨?_, ?_, ?_, ?_⟩
  · intro row hrow w src dst s hmissing
    obtain ⟨m, hexec⟩ : ∃ m, exec (row w src dst) s = twoOperand m w src dst s := by
      revert row
      simp only [List.forall_mem_cons, List.not_mem_nil, false_imp_iff, implies_true, and_true]
      refine ⟨?_, ?_, ?_, ?_, ?_, ?_, ?_, ?_, ?_, ?_, ?_, ?_⟩ <;> exact ⟨_, rfl⟩
    exact hexec.trans (twoOperand_of_missing m w s hmissing)
  · intro row hrow u w src s hextra hext
    obtain ⟨m, hexec⟩ : ∃ m, exec (row u w src) s = oneOperand m w src s := by
      revert row
      simp only [List.forall_mem_cons, List.not_mem_nil, false_imp_iff, implies_true, and_true]
      refine ⟨?_, ?_, ?_, ?_, ?_, ?_, ?_⟩ <;> exact ⟨_, rfl⟩
    exact hexec.trans (oneOperand_of_missing m w s hextra hext)
  · intro w src dmode dext s hmissing
    refine twoOperand_of_missing .mov w (dst := ⟨.pc, dmode, dext⟩) s (hmissing.imp_right ?_)
    rintro ⟨rfl, hext⟩
    exact ⟨rfl, hext⟩
  · intro w sreg smode s
    exact twoOperand_of_missing .bis w (dst := ⟨.sr, .indexed, none⟩) s (.inr ⟨rfl, rfl⟩)

/-- Settles O25: an instruction answers the state with a result set, and nothing else (`onlyResult_exec`). -/
theorem instructionsChangeOnlyTheResult : Obligations.InstructionsChangeOnlyTheResult := by
  unfold Obligations.InstructionsChangeOnlyTheResult
  intro i s t h
  obtain ⟨c, hc⟩ := onlyResult_exec i
  obtain rfl := Host.Outcome.next.inj ((hc s).symm.trans h)
  exact ⟨fun _ => rfl, rfl, rfl, rfl, rfl⟩

end Sys2Proof
end

section
/-! PROOFS. When a call fails and what it returns, by its word (30_encoding.md R64, 60_exceptions.md R151 to R153), and the
emulated mnemonics from bytes (44_emulated.md). -/

namespace Sys2Proof

open Sys2Proof.Machine

/-! ### The outcomes, one by one -/

section Outcomes

variable {s : State} {m : Mnemonic} {cls : InstrClass}

/-- Fewer than two bytes. -/
theorem answers_of_no_word (hn : s.n < 2) : Answers s (.failure .truncatedInput) :=
  answers_of_decode_error (decode_of_short s hn)

/-- The return word. -/
theorem answers_of_retWord (hn : 2 ≤ s.n) (hret : s.mem.instructionWord = config.retWord) :
    Answers s (.record (bareRecord s.address .ret 2)) := by
  have h := answers_decodeCall s
  rwa [decodeCall, if_neg (Nat.not_lt.2 hn), if_pos hret] at h

/-- A classified word whose bytes are all there. -/
theorem answers_of_classify (hret : s.mem.instructionWord ≠ config.retWord)
    (hclass : classify s.mem.instructionWord = some (m, cls)) (hlength : (recordOfWord s m cls).length ≤ s.n) :
    Answers s (.record (normalizeRecord (recordOfWord s m cls))) := by
  have hn : 2 ≤ s.n := by
    rw [length_recordOfWord, Nat.add_assoc] at hlength
    exact Nat.le_of_add_right_le hlength
  have h := answers_decodeCall s
  simp only [decodeCall, if_neg (Nat.not_lt.2 hn), if_neg hret, hclass] at h
  rwa [assembleWord_of_whole hlength] at h

/-- The length table has no length exactly for the words that fail classification. -/
theorem lengthTable_eq_none_iff : lengthTable s.mem.instructionWord = none ↔ classify s.mem.instructionWord = none := by
  by_cases hret : s.mem.instructionWord = config.retWord
  · rw [hret]
    exact iff_of_false nofun classify_retWord
  · constructor
    · intro htable
      cases hclass : classify s.mem.instructionWord with
      | none => rfl
      | some p => simp [lengthTable_of_classify hret hclass] at htable
    · intro hclass
      rw [lengthTable, if_neg hret]
      obtain hzero | ⟨hone, hseven⟩ := (classify_eq_none _).1 hclass
      · rw [if_pos hzero]
      · rw [if_neg (by simp [hone]), if_pos hone, if_pos hseven]

/-- A word with a length, and that many bytes. -/
theorem exists_record_of_lengthTable {len : Nat} (htable : lengthTable s.mem.instructionWord = some len)
    (hlen : len ≤ s.n) : ∃ r, Answers s (.record r) ∧ r.length = len ∧ r.address = s.address := by
  by_cases hret : s.mem.instructionWord = config.retWord
  · rw [lengthTable, if_pos hret] at htable
    obtain rfl := Option.some.inj htable
    exact ⟨_, answers_of_retWord hlen hret, rfl, rfl⟩
  · have hmapped : classify s.mem.instructionWord ≠ none := by
      rw [ne_eq, ← lengthTable_eq_none_iff, htable]
      nofun
    obtain ⟨⟨m, cls⟩, hclass⟩ := Option.ne_none_iff_exists'.1 hmapped
    obtain rfl := Option.some.inj ((lengthTable_of_classify hret hclass).symm.trans htable)
    exact ⟨_, answers_of_classify hret hclass hlen, normalizeRecord_length _, normalizeRecord_address _⟩

end Outcomes

/-- Settles O28: the word is the return word or a classified one, whose record has the table's length. -/
theorem wholeInstructionsGiveRecords : Obligations.WholeInstructionsGiveRecords := by
  unfold Obligations.WholeInstructionsGiveRecords
  exact fun s len => exists_record_of_lengthTable

/-- Settles O27: with two bytes there, it is the failed classification; with fewer, the call is truncated. -/
theorem invalidOpcodeExactlyWhen : Obligations.InvalidOpcodeExactlyWhen := by
  unfold Obligations.InvalidOpcodeExactlyWhen
  intro s
  by_cases hn : 2 ≤ s.n
  · rw [answers_invalidOpcode_iff hn, classify_eq_none]
    simp [hn]
  · refine iff_of_false (fun h => ?_) fun h => hn h.1
    cases h.unique (answers_of_no_word (Nat.lt_of_not_le hn))

/-- Settles O26: a record has the length of the table and fits, and a word without a length is invalid. -/
theorem truncatedInputExactlyWhen : Obligations.TruncatedInputExactlyWhen := by
  unfold Obligations.TruncatedInputExactlyWhen
  intro s
  constructor
  · intro h
    rw [or_iff_not_imp_left, Nat.not_lt]
    intro hn
    cases htable : lengthTable s.mem.instructionWord with
    | none => cases h.unique ((answers_invalidOpcode_iff hn).2 (lengthTable_eq_none_iff.1 htable))
    | some len =>
      refine ⟨len, rfl, Nat.lt_of_not_le fun hlen => ?_⟩
      obtain ⟨r, hr, -⟩ := exists_record_of_lengthTable htable hlen
      cases h.unique hr
  · rintro (hn | ⟨len, htable, hlen⟩)
    · exact answers_of_no_word hn
    · obtain ⟨c, hc⟩ := exists_answers s
      obtain ⟨r, rfl⟩ | rfl | rfl := callResult_is_record_or_failure c
      · obtain ⟨hr, hfits⟩ := hc.lengthTable_eq
        rw [htable, Option.some.injEq] at hr
        omega
      · exact hc
      · obtain ⟨hn, hinvalid⟩ := (invalidOpcodeExactlyWhen s).1 hc
        rw [← classify_eq_none, ← lengthTable_eq_none_iff, htable] at hinvalid
        cases hinvalid

/-- Settles O30: such a call is truncated, and its IR is not readable. -/
theorem fewerThanTwoBytesIsTruncated : Obligations.FewerThanTwoBytesIsTruncated := by
  unfold Obligations.FewerThanTwoBytesIsTruncated
  intro s hn
  have h := answers_of_no_word hn
  rwa [Answers, if_neg (Nat.not_le.2 hn)] at h

/-! ### The emulated mnemonics -/

/-- Settles O41: the fixed-word test comes before the opcode map. -/
theorem returnWordIsRet : Obligations.ReturnWordIsRet := by
  unfold Obligations.ReturnWordIsRet
  exact fun s => answers_of_retWord

section TwoOperand

variable {s : State} {m : Mnemonic} {len : Nat}

theorem classify_of_opcode4 {ir : Word} (hop : slice ir 12 4 = 4#4) : classify ir = some (.mov, .twoOperand) := by
  rw [classify, hop]
  rfl

theorem classify_of_opcode13 {ir : Word} (hop : slice ir 12 4 = 13#4) : classify ir = some (.bis, .twoOperand) := by
  rw [classify, hop]
  rfl

/-- The destination register of a two-operand record is the low field of the word. -/
theorem dst_reg_recordOfWord :
    (recordOfWord s m .twoOperand).dst.bind Operand.reg = some (regOfIndex (slice s.mem.instructionWord 0 4)) :=
  readExtension_reg ..

/-- A two-operand word with all its bytes gives what the Normalizer makes of its record, which has the length of the
table. -/
theorem answers_of_whole_twoOperand (hret : s.mem.instructionWord ≠ config.retWord)
    (hclass : classify s.mem.instructionWord = some (m, .twoOperand))
    (htable : lengthTable s.mem.instructionWord = some len) (hlen : len ≤ s.n) :
    Answers s (.record (normalizeRecord (recordOfWord s m .twoOperand))) ∧
      (recordOfWord s m .twoOperand).length = len := by
  obtain rfl := Option.some.inj ((lengthTable_of_classify hret hclass).symm.trans htable)
  exact ⟨answers_of_classify hret hclass hlen, rfl⟩

/-- The source of a two-operand record has the value of the `dint` rule exactly when its extension word is it. -/
theorem src_value_eq_dintSrcValue_iff :
    (recordOfWord s m .twoOperand).src.bind Operand.value = some 0xF0 ↔
      lengthTableSource (slice s.mem.instructionWord 4 2) (slice s.mem.instructionWord 8 4) = 2 ∧
        s.mem.read2 2 = 0xF0#16 := by
  rw [← extraOf_source]
  show (readExtension s.mem 2 (sourceOfWord .twoOperand s.mem.instructionWord)).value = some 0xF0 ↔ _
  rw [sourceOfWord_twoOperand]
  generalize hmode : reinterpretSource (regOfIndex (slice s.mem.instructionWord 8 4))
    (rawSrcModeOfBits (slice s.mem.instructionWord 4 2)) = mode
  simp only [readExtension, sourceOperand, registerOperand, hmode]
  split
  · next hextra =>
    rw [Option.some.injEq, ← BitVec.toNat_inj]
    simp only [hextra, true_and]
    norm_cast
  · next hextra => exact iff_of_false (initialValue_ne_dintSrcValue mode) fun h => hextra h.1

end TwoOperand

/-- Settles O42: the word is a `mov` word, and its record has destination register `pc`, so the Normalizer renames it. -/
theorem movIntoPcIsBr : Obligations.MovIntoPcIsBr := by
  unfold Obligations.MovIntoPcIsBr
  intro s len hmask hret htable hlen
  obtain ⟨hop, hdreg⟩ := (and_rewriteMask_eq_br_iff _).1 hmask
  obtain ⟨hr, hlength⟩ := answers_of_whole_twoOperand hret (classify_of_opcode4 hop) htable hlen
  have hpc : (recordOfWord s .mov .twoOperand).dst.bind Operand.reg = some .pc := by
    rw [dst_reg_recordOfWord, hdreg]
    rfl
  rw [normalizeRecord, if_pos ((isBranchForm_iff _).2 ⟨rfl, hpc⟩)] at hr
  exact ⟨_, hr, rfl, rfl, rfl, hlength, hpc⟩

/-- Settles O43: the word is a `bis` word, and its record has destination register `sr`, so the Normalizer's `dint` rule
turns on the source's value. -/
theorem bisOfF0ToSrIsDint : Obligations.BisOfF0ToSrIsDint := by
  unfold Obligations.BisOfF0ToSrIsDint
  intro s len hmask htable hlen
  obtain ⟨hop, hdreg⟩ := (and_rewriteMask_eq_dint_iff _).1 hmask
  have hret : s.mem.instructionWord ≠ config.retWord := by
    intro hret
    rw [hret] at hop
    exact absurd hop (by decide)
  obtain ⟨hr, hlength⟩ := answers_of_whole_twoOperand hret (classify_of_opcode13 hop) htable hlen
  have hbranch : isBranchForm (recordOfWord s .bis .twoOperand) = false := rfl
  have hdint : isDintForm (recordOfWord s .bis .twoOperand) = true ↔
      lengthTableSource (slice s.mem.instructionWord 4 2) (slice s.mem.instructionWord 8 4) = 2 ∧
        s.mem.read2 2 = 0xF0#16 := by
    rw [isDintForm_iff, dst_reg_recordOfWord, hdreg, src_value_eq_dintSrcValue_iff]
    exact ⟨fun h => h.2.2, fun h => ⟨rfl, rfl, h⟩⟩
  constructor
  · intro hform
    rw [normalizeRecord, hbranch, hdint.2 hform] at hr
    rw [← hlength]
    exact hr
  · intro hform
    rw [normalize_of_not _ hbranch (Bool.eq_false_iff.2 (mt hdint.1 hform))] at hr
    exact ⟨_, hr, rfl, rfl, hlength⟩

end Sys2Proof
end

section
/-! PROOFS. What an outcome depends on (20_memory.md R34 to R37, 40_decode_pipeline.md R97, 30_encoding.md R58): the bytes
of the instruction and no other, and the address only as it is copied. -/

namespace Sys2Proof

open Sys2Proof.Machine

/-! ### Address and byte count -/

/-- Two states of one window answer the same, each with its own address. -/
theorem exists_answers_of_window {s t : State} (hwindow : s.window = t.window) :
    ∃ c : CallResult, Answers s (c.withAddress s.address) ∧ Answers t (c.withAddress t.address) :=
  step_congr s t hwindow

/-- Settles O47: the window does not depend on the address. -/
theorem addressIsOnlyCopied : Obligations.AddressIsOnlyCopied := by
  unfold Obligations.AddressIsOnlyCopied
  intro s a
  obtain ⟨c, hs, ht⟩ := exists_answers_of_window (s := s) (t := { s with address := a }) rfl
  constructor
  · intro r hr
    cases c with
    | record q =>
      obtain rfl := CallResult.record.inj (hr.unique hs)
      exact ht
    | failure f => cases hr.unique hs
  · intro f hf
    cases c with
    | record q => cases hf.unique hs
    | failure g => rwa [hf.unique hs]

/-- Settles O49: the window holds six bytes at most. -/
theorem byteCountMayBeSaturated : Obligations.ByteCountMayBeSaturated := by
  unfold Obligations.ByteCountMayBeSaturated
  intro s c
  have hwindow : s.window = State.window { s with n := min s.n 6 } :=
    State.window_congr s { s with n := min s.n 6 } (by simp [config]) fun _ _ => rfl
  obtain ⟨d, hs, ht⟩ := exists_answers_of_window hwindow
  exact ⟨fun hc => hc.unique hs ▸ ht, fun hc => hc.unique ht ▸ hs⟩

/-! ### Bytes -/

/-- An operand's extension word is read from its two bytes only. -/
theorem readExtension_congr {buf buf' : Memory} {off : Nat} {o : Operand}
    (hread : ∀ a, off ≤ a → a < off + o.extra → buf'.read a = buf.read a) :
    readExtension buf' off o = readExtension buf off o := by
  unfold readExtension
  split
  · next hextra =>
    have hword : buf'.read2 off = buf.read2 off := by
      rw [Memory.read2, Memory.read2, hread off (by omega) (by omega), hread (off + 1) (by omega) (by omega)]
    rw [hword]
  · rfl

/-- The record of a word is assembled from the bytes of its length and the address. -/
theorem recordOfWord_congr {s t : State} {m : Mnemonic} {cls : InstrClass} (haddress : t.address = s.address)
    (hword : t.mem.instructionWord = s.mem.instructionWord)
    (hread : ∀ a, a < (recordOfWord s m cls).length → t.mem.read a = s.mem.read a) :
    recordOfWord t m cls = recordOfWord s m cls := by
  unfold recordOfWord assembledRecord at hread ⊢
  rw [haddress, hword]
  generalize (operandsOfWord cls s.mem.instructionWord).1 = src at hread ⊢
  generalize (operandsOfWord cls s.mem.instructionWord).2 = dst at hread ⊢
  have hsrc : readExtension t.mem 2 src = readExtension s.mem 2 src :=
    readExtension_congr fun a _ ha => hread a (Nat.lt_add_right _ ha)
  have hdst : dst.map (readExtension t.mem (2 + src.extra)) = dst.map (readExtension s.mem (2 + src.extra)) := by
    cases dst with
    | none => rfl
    | some o => exact congrArg some (readExtension_congr fun a _ ha => hread a ha)
  rw [hsrc, hdst]

/-- The instruction word is the first two bytes. -/
theorem instructionWord_congr {buf buf' : Memory} (hread : ∀ a, a < 2 → buf'.read a = buf.read a) :
    buf'.instructionWord = buf.instructionWord := by
  rw [Memory.instructionWord, Memory.instructionWord, hread 0 (by decide), hread 1 (by decide)]

/-- Settles O48: the record is assembled from the bytes of its length (`recordOfWord_congr`), and the length is the
word's, so fewer bytes are too few. -/
theorem surplusBytesAreNeverRead : Obligations.SurplusBytesAreNeverRead := by
  unfold Obligations.SurplusBytesAreNeverRead
  intro s t r h haddress
  obtain ⟨htable, -⟩ := h.lengthTable_eq
  constructor
  · intro hn hread
    have htwo : 2 ≤ r.length := by
      obtain h | h | h := eq_of_lengthTable htable <;> omega
    have hword := instructionWord_congr fun a ha => hread a (Nat.lt_of_lt_of_le ha htwo)
    obtain ⟨hret, -, rfl⟩ | ⟨hret, m, cls, hclass, -, rfl⟩ := h.record_cases
    · rw [← haddress]
      exact answers_of_retWord hn (hword.trans hret)
    · rw [normalizeRecord_length] at hn hread
      have hrecord := recordOfWord_congr haddress hword hread
      rw [← hrecord] at hn ⊢
      exact answers_of_classify (hword.trans_ne hret) ((congrArg classify hword).trans hclass) hn
  · intro htwo hn hread
    have hword := instructionWord_congr fun a ha => hread a (Nat.lt_of_lt_of_le ha htwo)
    exact (truncatedInputExactlyWhen t).2 (.inr ⟨r.length, (congrArg lengthTable hword).trans htable, hn⟩)

/-! ### Unexamined bits -/

/-- Words with the same low ten bits have the same fields there. -/
theorem slice_congr_of_low {ir ir' : Word} (hlow : slice ir' 0 10 = slice ir 0 10) {lo len : Nat} (hfits : lo + len ≤ 10) :
    slice ir' lo len = slice ir lo len := by
  apply BitVec.eq_of_getLsbD_eq
  intro i hi
  have hbit : (slice ir' 0 10).getLsbD (lo + i) = (slice ir 0 10).getLsbD (lo + i) := by rw [hlow]
  simpa [slice, hi, show lo + i < 10 by omega] using hbit

/-- The operand of a word of the one-operand format is given by its low ten bits. -/
theorem operandsOfWord_oneOperand_congr {ir ir' : Word} (hlow : slice ir' 0 10 = slice ir 0 10) :
    operandsOfWord .oneOperand ir' = operandsOfWord .oneOperand ir := by
  simp only [operandsOfWord, reduceCtorEq, if_false, sourceOfWord_oneOperand, slice_congr_of_low hlow (lo := 6) (len := 1) (by decide),
    slice_congr_of_low hlow (lo := 0) (len := 4) (by decide), slice_congr_of_low hlow (lo := 4) (len := 2) (by decide)]

/-- The class of a word of opcode nibble 1 is given by its low ten bits. -/
theorem classify_congr_of_opcode1 {ir ir' : Word} (hop : slice ir 12 4 = 1#4) (hop' : slice ir' 12 4 = 1#4)
    (hlow : slice ir' 0 10 = slice ir 0 10) : classify ir' = classify ir := by
  rw [classify, classify, hop, hop', slice_congr_of_low hlow (lo := 7) (len := 3) (by decide)]
  rfl

/-- A record of one operand is assembled from the bytes after the word. -/
theorem assembleWord_congr {buf buf' : Memory} {n : Nat} {address : Int} {m : Mnemonic} {cls : InstrClass} {src : Operand}
    (hread : ∀ a, 2 ≤ a → buf'.read a = buf.read a) :
    assembleWord buf' n address m cls src none = assembleWord buf n address m cls src none := by
  have hsrc : readExtension buf' 2 src = readExtension buf 2 src := readExtension_congr fun a ha _ => hread a ha
  rw [assembleWord, assembleWord, hsrc]
  rfl

theorem ne_retWord_of_opcode1 {ir : Word} (hop : slice ir 12 4 = 1#4) : ir ≠ config.retWord := by
  rintro rfl
  exact absurd hop (by decide)

/-- The class of a word of opcode nibble 1. -/
theorem cls_of_opcode1 {ir : Word} {m : Mnemonic} {cls : InstrClass} (hop : slice ir 12 4 = 1#4)
    (hclass : classify ir = some (m, cls)) : cls = .oneOperand := by
  obtain ⟨-, -, ⟨hone, -⟩ | ⟨-, h⟩ | ⟨-, h⟩, -⟩ := classify_eq_some _ _ _ hclass
  · exact hone
  · simp [hop] at h
  · simp [hop] at h

/-- Settles O50: the decode function reads the low ten bits of such a word, which give its class and its operand. -/
theorem unexaminedBitsChangeNothing : Obligations.UnexaminedBitsChangeNothing := by
  unfold Obligations.UnexaminedBitsChangeNothing
  intro s t c hn haddress _ hop hop' hlow hread hc
  have hcall : decodeCall t.mem t.n t.address = decodeCall s.mem s.n s.address := by
    simp only [decodeCall, if_neg (ne_retWord_of_opcode1 hop), if_neg (ne_retWord_of_opcode1 hop'),
      classify_congr_of_opcode1 hop hop' hlow, hn, haddress]
    cases hclass : classify s.mem.instructionWord with
    | none => rfl
    | some p =>
      obtain ⟨m, cls⟩ := p
      obtain rfl := cls_of_opcode1 hop hclass
      simp only [operandsOfWord_oneOperand_congr hlow]
      rw [show (operandsOfWord .oneOperand s.mem.instructionWord).2 = none from rfl, assembleWord_congr hread]
  rw [hc.unique (answers_decodeCall s), ← hcall]
  exact answers_decodeCall t

end Sys2Proof
end

section
/-! PROOFS. Steps and runs (40_decode_pipeline.md R70, R96), and the destination column of the mode table (R82). -/

namespace Sys2Proof

open Sys2Proof.Machine

/-- Settles O7: a window that decodes is of two bytes or more, so IR is latched. -/
theorem stepRunsTheDecodedInstruction : Obligations.StepRunsTheDecodedInstruction := by
  unfold Obligations.StepRunsTheDecodedInstruction
  refine ⟨fun s i rest hdecode => ?_, fun s e => answers_of_decode_error⟩
  have hn : 2 ≤ s.n := by
    by_contra hn
    rw [decode_of_short s (Nat.lt_of_not_le hn)] at hdecode
    cases hdecode
  rw [step, hdecode]
  simp only [State.latchIr, if_pos hn]

/-- A run continues from the next state of its first step. -/
theorem run_succ_of_step (M : Host.Core) {s t : M.State} (hstep : M.step s = .next t) (k : Nat) :
    M.run (k + 1) s = M.run k t := by
  rw [Host.Core.run, hstep]

/-- Settles O9: every step answers a next state (`exists_answers`), so a run of any length does. -/
theorem noRunEverStops : Obligations.NoRunEverStops := by
  unfold Obligations.NoRunEverStops
  intro s k
  induction k generalizing s with
  | zero => exact ⟨s, rfl⟩
  | succ k ih =>
    obtain ⟨c, hc⟩ := exists_answers s
    obtain ⟨t, ht⟩ := ih (s.latchIr.setResult c)
    have hstep : core.step s = .next (s.latchIr.setResult c) := hc
    exact ⟨t, (run_succ_of_step core hstep k).trans ht⟩

/-- Settles O37, register by register and raw mode by raw mode. -/
theorem destinationReinterpretation : Obligations.DestinationReinterpretation := by
  unfold Obligations.DestinationReinterpretation
  constructor
  · intro reg
    cases reg <;> exact ⟨rfl, rfl⟩
  · intro reg raw
    cases reg <;> cases raw <;> decide

end Sys2Proof
end
